-- ==== Sys2Proof/Word.lean ====
section
/-! DEFINITION. The value types of the core: bytes, 32-bit words, 10-bit command words, the 4-byte digest
(spec 00_scope.md R6, R8; 30_encoding.md R40; 20_memory.md R30). -/

namespace Sys2Proof

/-- One input element: 8 bits, unsigned (R6 `BYTE_WIDTH`). -/
abbrev Byte := BitVec 8

/-- The working register and a table entry: 32 bits, unsigned (R6 `REG_WIDTH`, `TABLE_ENTRY_WIDTH`). -/
abbrev Word := BitVec 32

/-- The command word on the port `cmd_word`: 10 bits (R39, R40). -/
abbrev CmdWord := BitVec 10

/-- A digest: always exactly four bytes, byte0 first (R6 `DIGEST_BYTES`, R30). -/
structure Digest where
  byte0 : Byte
  byte1 : Byte
  byte2 : Byte
  byte3 : Byte
  deriving DecidableEq, Repr

/-- The digest as the ordered byte sequence R30 writes. -/
def Digest.toList (d : Digest) : List Byte := [d.byte0, d.byte1, d.byte2, d.byte3]

end Sys2Proof
end

