-- ==== Sys2Proof/Machine/Source.lean ====
section
/-! DEFINITION. Assembler statements as trees (30_encoding.md R46 to R49): the four mnemonics and the three
pseudo-instructions. Operand values are numbers here, so that one outside 0 to 255 can be written and refused. -/

namespace Sys2Proof.Machine

/-- One element of the text of `UPDATES` or `HASH` (R48). -/
inductive TextItem where
  /-- A character written as itself. -/
  | char (c : Char)
  /-- The escape `\\`. -/
  | backslash
  /-- The escape `\"`. -/
  | quote
  /-- The escape `\xHH`. -/
  | byte (b : Byte)
  deriving DecidableEq, Repr

/-- One assembler statement (R46 to R49). -/
inductive Stmt where
  | nop
  | init
  | update (v : Nat)
  | final
  | updateb (vs : List Nat)
  | updates (text : List TextItem)
  | hash (text : List TextItem)
  deriving DecidableEq, Repr

/-- The characters a character literal admits: 0x20 to 0x7E (R46). -/
def printable (c : Char) : Bool := decide (0x20 ≤ c.toNat) && decide (c.toNat ≤ 0x7E)

/-- The characters a text admits as themselves: printable, but for the double quote and the backslash (R48). -/
def textChar (c : Char) : Bool := printable c && c != '"' && c != '\\'

/-- R46: an `imm8` lies in 0 to 255. -/
def immInRange (v : Nat) : Bool := decide (v ≤ 255)

end Sys2Proof.Machine
end

