-- ==== Sys2Proof/Syntax.lean ====
section
/-! DEFINITION. The commands of the core: one constructor per row of spec/opcode_table.json. -/

namespace Sys2Proof

/-- A command (30_encoding.md R40, R45). The ignored data bits of NOP, INIT and FINAL are no operand (R41). -/
inductive Instr where
  /-- NOP (41_accumulator.md R60). -/
  | nop
  /-- INIT (R62). -/
  | init
  /-- UPDATE c (R63): c is `cmd_word[7:0]`. -/
  | update (c : Byte)
  /-- FINAL (R64). -/
  | final
  deriving DecidableEq, Repr

end Sys2Proof
end

