-- ==== Sys2Proof/WellFormed.lean ====
section
/-! DEFINITION. Which terms are well formed. A command always is: its one operand is 8 bits wide, so that "there is also
no out-of-range operand" (60_exceptions.md R72). An assembler statement may not be (30_encoding.md R46, R48). -/

namespace Sys2Proof

/-- R72: the operand of UPDATE lies in 0 to 255, which its type already gives. The other commands have no operand. -/
def Instr.wellFormed : Instr → Bool
  | .nop => true
  | .init => true
  | .update c => decide (c.toNat ≤ 255)
  | .final => true

namespace Machine

/-- R48: the escapes are always allowed, a plain character only in its range. -/
def TextItem.wellFormed : TextItem → Bool
  | .char c => textChar c
  | .backslash => true
  | .quote => true
  | .byte _ => true

/-- R46 to R49. -/
def Stmt.wellFormed : Stmt → Bool
  | .nop => true
  | .init => true
  | .update v => immInRange v
  | .final => true
  | .updateb vs => vs.all immInRange
  | .updates text => text.all TextItem.wellFormed
  | .hash text => text.all TextItem.wellFormed

end Machine

end Sys2Proof
end

