-- ==== Sys2Proof/Decode.lean ====
section
/-! DEFINITION. The decoder of 30_encoding.md R45, total over the 1024 command words, and the encoder, its inverse on the
canonical words. The opcode table's rows as masks and patterns. The carrying of a wider number onto the 10-bit port,
which rejects by name. -/

namespace Sys2Proof

/-- `cmd_word[7:0]` (R40). -/
def dataOf (w : CmdWord) : Byte := w.extractLsb' 0 8

/-- `cmd_word[9:8]` (R40). -/
def opOf (w : CmdWord) : BitVec 2 := w.extractLsb' 8 2

/-- R45: four arms on bits 9 and 8, no wildcard and no failure arm. -/
def decode (w : CmdWord) : Instr :=
  match w.getLsbD 9, w.getLsbD 8 with
  | false, false => .nop
  | false, true => .init
  | true, false => .update (dataOf w)
  | true, true => .final

/-- The `op` value of a command (R40). -/
def Instr.op : Instr → BitVec 2
  | .nop => 0b00#2
  | .init => 0b01#2
  | .update _ => 0b10#2
  | .final => 0b11#2

/-- R45: "An encoder always writes `data = 0` for NOP, INIT and FINAL". -/
def encode : Instr → CmdWord
  | .nop => 0x000#10
  | .init => 0x100#10
  | .update c => 0x200#10 ||| c.setWidth 10
  | .final => 0x300#10

/-- One row of spec/opcode_table.json: a word belongs to it where its masked bits are the pattern. -/
structure OpcodeRow where
  mask : CmdWord
  pattern : CmdWord
  deriving DecidableEq, Repr

def OpcodeRow.covers (r : OpcodeRow) (w : CmdWord) : Bool := w &&& r.mask == r.pattern

/-- The row of a command in spec/opcode_table.json (`mask`, `match`). -/
def Instr.row : Instr → OpcodeRow
  | .nop => ⟨0x300#10, 0x000#10⟩
  | .init => ⟨0x300#10, 0x100#10⟩
  | .update _ => ⟨0x300#10, 0x200#10⟩
  | .final => ⟨0x300#10, 0x300#10⟩

/-- The four rows, in the table's order. -/
def opcodeRows : List OpcodeRow := [Instr.nop.row, Instr.init.row, (Instr.update 0).row, Instr.final.row]

/-- Why a number is no command word. -/
inductive Rejection where
  /-- It needs more than the ten bits every command word has (R44). Raised by `portWord`; safe (log 8). -/
  | widerThanTenBits
  deriving DecidableEq, Repr

/-- The command word whose bits are the low `nbits` bits of `w`, every bit above them 0, where the ten wires of
`cmd_word` can carry it (R39, R44; log 8). -/
def portWord (nbits w : Nat) : Except Rejection CmdWord :=
  if w % 2 ^ nbits < 1024 then .ok (BitVec.ofNat 10 (w % 2 ^ nbits)) else .error .widerThanTenBits

/-- The command the decoder reads from a word given as a number. -/
def decodeTableWord (nbits w : Nat) : Option Instr :=
  match portWord nbits w with
  | .ok cw => some (decode cw)
  | .error _ => none

end Sys2Proof
end

