-- ==== Sys2Proof/Config.lean ====
section
/-! DEFINITION. What is fixed for the machine: the fixed parameters of 00_scope.md R6, the parameters R7 leaves to
the implementer, and the one free value of the model. -/

namespace Sys2Proof.Config

/-- R6 `REG_WIDTH`. -/
def regWidth : Nat := 32

/-- R6 `CRC_WIDTH`, the meaningful width. -/
def crcWidth : Nat := 16

/-- R6 `BYTE_WIDTH`. -/
def byteWidth : Nat := 8

/-- R6 `POLY_REFL`: the reflected polynomial, at the register's width. -/
def polyRefl : Word := 0x0000A001#32

/-- R6 `POLY_NORMAL`: informational, used by no operation of the machine. -/
def polyNormal : BitVec 16 := 0x8005#16

/-- R6 `INIT_VALUE`. -/
def initValue : Word := 0x00000000#32

/-- R6 `TABLE_ENTRIES`. -/
def tableEntries : Nat := 256

/-- R6 `ROUNDS`. -/
def rounds : Nat := 8

/-- R6 `DIGEST_BYTES`. -/
def digestBytes : Nat := 4

/-- R7 `TABLE_IMPL` (R54): how the table is realised. No command result depends on it. -/
inductive TableImpl where
  | rom
  | combinational
  | generatedRam
  deriving DecidableEq, Repr

/-- FREE VALUE (log 5). What the register holds after the n-th loss of power: "the value of `crc` is then lost"
(60_exceptions.md R84) and unspecified until the next reset (10_state.md R23; 93_implementation_defined.md I5).
DESIGN CHOICE, unsafe: the value depends on n alone, so that two instances, or two runs, with the same count of losses hold
the same value. The spec says no such thing, and no claim may rest on it. -/
opaque unpoweredCrc : Nat → Word

end Sys2Proof.Config
end

