-- ==== Sys2Proof/Machine/State.lean ====
section
/-! DEFINITION. The state of one accumulator instance (10_state.md), what its ports carry, and the reasons a step can
stop (60_exceptions.md R71, R74). Plain data. -/

namespace Sys2Proof.Machine

/-- Whether the instance was reset since it was powered (10_state.md R23; 60_exceptions.md R74, R84). -/
inductive Condition where
  /-- Before the first reset, or after a loss of power. The register then holds no known value. -/
  | preReset
  /-- After a reset. -/
  | operational
  deriving DecidableEq, Repr

/-- What the ports of 30_encoding.md R39 carry in one cycle, response port apart. `cmd_valid` is 1 where `words` is
not empty; more than one word means drivers that are not serialised (60_exceptions.md R82). `ready` is `cmd_ready`,
whose timing is the parameter LATENCY (log 3). -/
structure PortCycle where
  rst : Bool
  ready : Bool
  words : List CmdWord
  deriving DecidableEq, Repr

/-- What the outside does to the instance next. -/
inductive HostEvent where
  /-- One cycle of the ports. -/
  | cycle (p : PortCycle)
  /-- Power is lost (60_exceptions.md R84). -/
  | powerLoss
  deriving DecidableEq, Repr

/-- One instance. `crc` is the only mutable architectural state (10_state.md R13). -/
structure State where
  /-- The working register (R14). -/
  crc : Word
  /-- Reset since powered, or not (R23). -/
  condition : Condition
  /-- The response port in the cycle just ended: `some` is `rsp_valid = 1` (R42; log 4). -/
  rsp : Option Digest
  /-- The model's own: what the host will still present, the next event first (R17, R95; log 2). -/
  inputs : List HostEvent
  /-- The model's own: how often power was lost, the index of the free value of log 5. -/
  powerLosses : Nat
  deriving DecidableEq, Repr

/-- R71: "The core raises no synchronous exception". Nothing raises a fault, so there is none. -/
inductive Fault where
  deriving DecidableEq, Repr

/-- Why a step has no meaning. The two interface refusals are those of 60_exceptions.md R74, and no others. -/
inductive Refusal where
  /-- The arm of an instruction that has no meaning yet; no arm of this model is one. Safe. -/
  | notModelled (mnemonic : String)
  /-- R74 (a): a command is presented before the first reset. Raised by `acceptWords`. Safe: the hardware goes on
  with a value the spec does not give. -/
  | beforeFirstReset
  /-- R74 (b): several drivers present command words in one step. Raised by `acceptWords`. Safe. -/
  | unserialisedDrivers
  deriving DecidableEq, Repr

/-- Right after reset (10_state.md R24; 70_reset_and_hazards.md R85, R94): `crc` is 0, no response, nothing in flight.
The host has presented nothing yet (log 2). -/
def State.reset : State :=
  { crc := 0x00000000#32
    condition := .operational
    rsp := none
    inputs := []
    powerLosses := 0 }

end Sys2Proof.Machine
end

