-- ==== Sys2Proof/Machine/Operands.lean ====
section
/-! DEFINITION. The bit-field forms operands and results take (00_scope.md R8, R9; 30_encoding.md R41). Commands name no
register and no address; UPDATE's byte is the only encoded operand, and the table index is computed. -/

namespace Sys2Proof.Machine

/-- `zext_32` of a byte (R9): no sign extension, no scaling (R41). -/
def zext32 (b : Byte) : Word := b.setWidth 32

/-- `v[7:0]`. -/
def byte0Of (v : Word) : Byte := v.extractLsb' 0 8

/-- `v[15:8]`. -/
def byte1Of (v : Word) : Byte := v.extractLsb' 8 8

/-- `v[23:16]`. -/
def byte2Of (v : Word) : Byte := v.extractLsb' 16 8

/-- `v[31:24]`. -/
def byte3Of (v : Word) : Byte := v.extractLsb' 24 8

/-- `v[31:16]`, the half that stays zero (10_state.md R15). -/
def highHalf (v : Word) : BitVec 16 := v.extractLsb' 16 16

/-- The bits of a byte in the order the reflected CRC takes them, bit 0 first (20_memory.md R29). -/
def bitsLsbFirst (b : Byte) : List Bool :=
  [b.getLsbD 0, b.getLsbD 1, b.getLsbD 2, b.getLsbD 3, b.getLsbD 4, b.getLsbD 5, b.getLsbD 6, b.getLsbD 7]

end Sys2Proof.Machine
end

