-- ==== Sys2Proof/Machine/TableGen.lean ====
section
/-! DEFINITION. The table generator `crc16_table_gen` (40_table_gen.md): one round, the entry function, the read port, and
the three realisations R54 allows. -/

namespace Sys2Proof.Machine

/-- `GEN_ROUND` (R51). -/
def genRound (r : Word) : Word :=
  if r.getLsbD 0 then (r >>> 1) ^^^ Config.polyRefl else r >>> 1

/-- `repeat n times: r := GEN_ROUND(r)` (R52). -/
def genRounds : Nat → Word → Word
  | 0, r => r
  | n + 1, r => genRounds n (genRound r)

/-- `TABLE(i)` (R52): total, a function of `i` alone (R53). -/
def tableEntry (i : Byte) : Word := genRounds Config.rounds (zext32 i)

/-- The read port of R54: `tg_entry` for a `tg_index`. -/
def tgEntry (tgIndex : Byte) : Word := tableEntry tgIndex

/-- R54, combinational logic: eight cascaded `GEN_ROUND` stages on the index. -/
def cascade (i : Byte) : Word :=
  let r1 := genRound (zext32 i)
  let r2 := genRound r1
  let r3 := genRound r2
  let r4 := genRound r3
  let r5 := genRound r4
  let r6 := genRound r5
  let r7 := genRound r6
  genRound r7

/-- R57, rows 0x00 to 0x38. -/
def romPart0 : List Word :=
  [ 0x0000#32, 0xC0C1#32, 0xC181#32, 0x0140#32, 0xC301#32, 0x03C0#32, 0x0280#32, 0xC241#32,
    0xC601#32, 0x06C0#32, 0x0780#32, 0xC741#32, 0x0500#32, 0xC5C1#32, 0xC481#32, 0x0440#32,
    0xCC01#32, 0x0CC0#32, 0x0D80#32, 0xCD41#32, 0x0F00#32, 0xCFC1#32, 0xCE81#32, 0x0E40#32,
    0x0A00#32, 0xCAC1#32, 0xCB81#32, 0x0B40#32, 0xC901#32, 0x09C0#32, 0x0880#32, 0xC841#32,
    0xD801#32, 0x18C0#32, 0x1980#32, 0xD941#32, 0x1B00#32, 0xDBC1#32, 0xDA81#32, 0x1A40#32,
    0x1E00#32, 0xDEC1#32, 0xDF81#32, 0x1F40#32, 0xDD01#32, 0x1DC0#32, 0x1C80#32, 0xDC41#32,
    0x1400#32, 0xD4C1#32, 0xD581#32, 0x1540#32, 0xD701#32, 0x17C0#32, 0x1680#32, 0xD641#32,
    0xD201#32, 0x12C0#32, 0x1380#32, 0xD341#32, 0x1100#32, 0xD1C1#32, 0xD081#32, 0x1040#32 ]

/-- R57, rows 0x40 to 0x78. -/
def romPart1 : List Word :=
  [ 0xF001#32, 0x30C0#32, 0x3180#32, 0xF141#32, 0x3300#32, 0xF3C1#32, 0xF281#32, 0x3240#32,
    0x3600#32, 0xF6C1#32, 0xF781#32, 0x3740#32, 0xF501#32, 0x35C0#32, 0x3480#32, 0xF441#32,
    0x3C00#32, 0xFCC1#32, 0xFD81#32, 0x3D40#32, 0xFF01#32, 0x3FC0#32, 0x3E80#32, 0xFE41#32,
    0xFA01#32, 0x3AC0#32, 0x3B80#32, 0xFB41#32, 0x3900#32, 0xF9C1#32, 0xF881#32, 0x3840#32,
    0x2800#32, 0xE8C1#32, 0xE981#32, 0x2940#32, 0xEB01#32, 0x2BC0#32, 0x2A80#32, 0xEA41#32,
    0xEE01#32, 0x2EC0#32, 0x2F80#32, 0xEF41#32, 0x2D00#32, 0xEDC1#32, 0xEC81#32, 0x2C40#32,
    0xE401#32, 0x24C0#32, 0x2580#32, 0xE541#32, 0x2700#32, 0xE7C1#32, 0xE681#32, 0x2640#32,
    0x2200#32, 0xE2C1#32, 0xE381#32, 0x2340#32, 0xE101#32, 0x21C0#32, 0x2080#32, 0xE041#32 ]

/-- R57, rows 0x80 to 0xB8. -/
def romPart2 : List Word :=
  [ 0xA001#32, 0x60C0#32, 0x6180#32, 0xA141#32, 0x6300#32, 0xA3C1#32, 0xA281#32, 0x6240#32,
    0x6600#32, 0xA6C1#32, 0xA781#32, 0x6740#32, 0xA501#32, 0x65C0#32, 0x6480#32, 0xA441#32,
    0x6C00#32, 0xACC1#32, 0xAD81#32, 0x6D40#32, 0xAF01#32, 0x6FC0#32, 0x6E80#32, 0xAE41#32,
    0xAA01#32, 0x6AC0#32, 0x6B80#32, 0xAB41#32, 0x6900#32, 0xA9C1#32, 0xA881#32, 0x6840#32,
    0x7800#32, 0xB8C1#32, 0xB981#32, 0x7940#32, 0xBB01#32, 0x7BC0#32, 0x7A80#32, 0xBA41#32,
    0xBE01#32, 0x7EC0#32, 0x7F80#32, 0xBF41#32, 0x7D00#32, 0xBDC1#32, 0xBC81#32, 0x7C40#32,
    0xB401#32, 0x74C0#32, 0x7580#32, 0xB541#32, 0x7700#32, 0xB7C1#32, 0xB681#32, 0x7640#32,
    0x7200#32, 0xB2C1#32, 0xB381#32, 0x7340#32, 0xB101#32, 0x71C0#32, 0x7080#32, 0xB041#32 ]

/-- R57, rows 0xC0 to 0xF8. -/
def romPart3 : List Word :=
  [ 0x5000#32, 0x90C1#32, 0x9181#32, 0x5140#32, 0x9301#32, 0x53C0#32, 0x5280#32, 0x9241#32,
    0x9601#32, 0x56C0#32, 0x5780#32, 0x9741#32, 0x5500#32, 0x95C1#32, 0x9481#32, 0x5440#32,
    0x9C01#32, 0x5CC0#32, 0x5D80#32, 0x9D41#32, 0x5F00#32, 0x9FC1#32, 0x9E81#32, 0x5E40#32,
    0x5A00#32, 0x9AC1#32, 0x9B81#32, 0x5B40#32, 0x9901#32, 0x59C0#32, 0x5880#32, 0x9841#32,
    0x8801#32, 0x48C0#32, 0x4980#32, 0x8941#32, 0x4B00#32, 0x8BC1#32, 0x8A81#32, 0x4A40#32,
    0x4E00#32, 0x8EC1#32, 0x8F81#32, 0x4F40#32, 0x8D01#32, 0x4DC0#32, 0x4C80#32, 0x8C41#32,
    0x4400#32, 0x84C1#32, 0x8581#32, 0x4540#32, 0x8701#32, 0x47C0#32, 0x4680#32, 0x8641#32,
    0x8201#32, 0x42C0#32, 0x4380#32, 0x8341#32, 0x4100#32, 0x81C1#32, 0x8081#32, 0x4040#32 ]

/-- R54, a ROM: its contents are the listing of R57. -/
def rom : List Word := romPart0 ++ romPart1 ++ romPart2 ++ romPart3

/-- R54, a generator that fills a RAM: one tick writes the next entry, until all are written (log 10). -/
def fillTick (ram : List Word) : List Word :=
  if ram.length < Config.tableEntries then ram ++ [tableEntry (BitVec.ofNat 8 ram.length)] else ram

/-- The RAM after `n` ticks. -/
def ramAfter : Nat → List Word
  | 0 => []
  | n + 1 => fillTick (ramAfter n)

/-- R87: whether the table is complete, so that an instance may accept a command. -/
def tableReady (impl : Config.TableImpl) (ticks : Nat) : Bool :=
  match impl with
  | .rom => true
  | .combinational => true
  | .generatedRam => decide ((ramAfter ticks).length = Config.tableEntries)

/-- What a realisation answers for an index, `none` where the entry is not filled yet. -/
def tableLookup (impl : Config.TableImpl) (ticks : Nat) (i : Byte) : Option Word :=
  match impl with
  | .rom => rom[i.toNat]?
  | .combinational => some (cascade i)
  | .generatedRam => (ramAfter ticks)[i.toNat]?

end Sys2Proof.Machine
end

