-- ==== Sys2Proof/Machine/Ops.lean ====
section
/-! DEFINITION. The operations the commands and the ports share. There is no operation that takes an exception or returns
from one: the core has neither (60_exceptions.md R71, R77, R78). -/

namespace Sys2Proof.Machine

/-- `TableRead` (20_memory.md R27), the only memory read: always succeeds, no side effect. -/
def tableRead (i : Byte) : Word := tgEntry i

/-- The index of R61: `((crc ^ zext_32(c)) & 0x0000_00FF)[7:0]`. -/
def crcIndex (crc : Word) (c : Byte) : Byte := byte0Of ((crc ^^^ zext32 c) &&& 0x000000FF#32)

/-- `CRC_STEP` (41_accumulator.md R61), all 32 bits wide (10_state.md R15). -/
def crcStep (crc : Word) (c : Byte) : Word := tableRead (crcIndex crc c) ^^^ (crc >>> 8)

/-- `BE4` (20_memory.md R30): most-significant byte first. -/
def be4 (v : Word) : Digest := ⟨byte3Of v, byte2Of v, byte1Of v, byte0Of v⟩

/-- `rsp_digest[31:0]` of a digest (R31): byte0 in bits 31:24. -/
def digestWord (d : Digest) : Word := (((d.byte0 ++ d.byte1 : BitVec 16) ++ d.byte2 : BitVec 24) ++ d.byte3 : BitVec 32)

/-- R31: the cells of a host's byte-addressed memory after it stores a digest at `base`, byte0 at the lowest address. -/
def digestCells (base : Nat) (d : Digest) : List Host.Cell :=
  [(base, d.byte0), (base + 1, d.byte1), (base + 2, d.byte2), (base + 3, d.byte3)]

/-- Read the working register (00_scope.md R10, `crc`). -/
def readCrc (s : State) : Word := s.crc

/-- Write the working register (R10, `crc <- v`). -/
def writeCrc (v : Word) (s : State) : State := { s with crc := v }

/-- R10 `respond(d)`: the digest is on the response port in this step (30_encoding.md R42). -/
def respond (d : Digest) (s : State) : State := { s with rsp := some d }

/-- R42: `rsp_valid = 0` in a step that is no FINAL, and in a cycle with no step. -/
def noResponse (s : State) : State := { s with rsp := none }

/-- A cycle in which no command is accepted and `rst` is 0: "the state does not change" (R39). -/
def idleCycle (s : State) : State := noResponse s

/-- A cycle with `rst = 1` (70_reset_and_hazards.md R85): `crc <- 0`, no response, and the pre-reset condition ends (R86). -/
def applyReset (s : State) : State := { noResponse (writeCrc Config.initValue s) with condition := .operational }

/-- Loss of power "is treated as the pre-reset condition" (60_exceptions.md R84): the register's value is lost, and what it
holds is a free value. DESIGN CHOICE (log 5), unsafe: that value is a function of the count of losses alone, where the spec
leaves it unspecified; two instances with equal counts hold the same lost value in the model only. -/
def losePower (s : State) : State :=
  { noResponse (writeCrc (Config.unpoweredCrc s.powerLosses) s) with
    condition := .preReset, powerLosses := s.powerLosses + 1 }

/-- What the host will still present. -/
def setInputs (es : List HostEvent) (s : State) : State := { s with inputs := es }

end Sys2Proof.Machine
end

