-- ==== Sys2Proof/Machine/Accumulator.lean ====
section
/-! DEFINITION. The four commands of `crc16_accumulator` (41_accumulator.md R59 to R64). Each is total: "it has no fault and
no refusal arm" (R59). Every read uses the state before the step. -/

namespace Sys2Proof.Machine

/-- NOP (R60): no read, no write, no response. -/
def execNop (s : State) : Host.Outcome State Fault Refusal := .next (noResponse s)

/-- INIT (R62): `crc <- 0x0000_0000`, no response. -/
def execInit (s : State) : Host.Outcome State Fault Refusal := .next (noResponse (writeCrc Config.initValue s))

/-- UPDATE (R63): `crc <- CRC_STEP(crc, c)`, no response. -/
def execUpdate (c : Byte) (s : State) : Host.Outcome State Fault Refusal :=
  .next (noResponse (writeCrc (crcStep (readCrc s) c) s))

/-- FINAL (R64): `respond(BE4(crc))`; `crc` is not written. -/
def execFinal (s : State) : Host.Outcome State Fault Refusal := .next (respond (be4 (readCrc s)) s)

end Sys2Proof.Machine
end

