-- ==== Sys2Proof/Machine/Ports.lean ====
section
/-! DEFINITION. One cycle of the ports: when a command is accepted, what reset and the loss of power do, and the two
refusals of 60_exceptions.md R74 (30_encoding.md R39; R76, R82, R84; 70_reset_and_hazards.md R85). -/

namespace Sys2Proof.Machine

/-- The words presented in a cycle with `cmd_ready = 1` and `rst = 0`. One word is a step (R39), which runs the command it
decodes to (R59). None is an idle cycle. Before the first reset a presented word is refused (R74 a), and so are two
words in one step (R74 b); where both hold the first reason is named (log 7). -/
def acceptWords (words : List CmdWord) (s : State) : Host.Outcome State Fault Refusal :=
  match words, s.condition with
  | [], _ => .next (idleCycle s)
  | _ :: _, .preReset => .refused .beforeFirstReset
  | [w], .operational => exec (decode w) s
  | _ :: _ :: _, .operational => .refused .unserialisedDrivers

/-- One cycle. Reset wins over a command in the same cycle (R76); with `cmd_ready = 0` no command is accepted (R39). -/
def portCycle (p : PortCycle) (s : State) : Host.Outcome State Fault Refusal :=
  match p.rst, p.ready with
  | true, _ => .next (applyReset s)
  | false, false => .next (idleCycle s)
  | false, true => acceptWords p.words s

/-- One event from outside. -/
def takeEvent (e : HostEvent) (s : State) : Host.Outcome State Fault Refusal :=
  match e with
  | .cycle p => portCycle p s
  | .powerLoss => .next (losePower s)

/-- The next event, taken off the host's list; with none left the cycle is idle (log 2). -/
def nextCycle (s : State) : Host.Outcome State Fault Refusal :=
  match s.inputs with
  | [] => .next (idleCycle s)
  | e :: rest => takeEvent e (setInputs rest s)

/-- The cycle in which one serialised driver presents `w` and it is accepted. -/
def commandCycle (w : CmdWord) : PortCycle := { rst := false, ready := true, words := [w] }

/-- The cycle in which nothing is presented. -/
def emptyCycle : PortCycle := { rst := false, ready := true, words := [] }

/-- The cycle that presents the word a number stands for, and an idle one where it is no command word (log 8). -/
def fetchCycle (nbits w : Nat) : PortCycle :=
  match portWord nbits w with
  | .ok cw => commandCycle cw
  | .error _ => emptyCycle

/-- R87: an instance shows `cmd_ready = 1` only in a cycle by which its table is complete. `ticks` counts the ticks a
generator's fill has had before the first of the cycles (log 10). -/
def readyOnlyWhenFilled (impl : Config.TableImpl) : Nat → List PortCycle → Bool
  | _, [] => true
  | ticks, p :: rest => (!p.ready || tableReady impl ticks) && readyOnlyWhenFilled impl (ticks + 1) rest

end Sys2Proof.Machine
end

