-- ==== Sys2Proof/Machine/Step.lean ====
section
/-! DEFINITION. The step of the machine: one cycle of its ports (30_encoding.md R39). -/

namespace Sys2Proof.Machine

/-- One cycle: the next event of the host's list. -/
def step (s : State) : Host.Outcome State Fault Refusal := nextCycle s

/-- `s` with the host about to present the word of these bits, ready to be accepted in the very next step (log 2, log 8).
Nothing else changes. -/
def State.withFetchWord (s : State) (nbits w : Nat) : State :=
  setInputs (.cycle (fetchCycle nbits w) :: s.inputs) s

end Sys2Proof.Machine
end

