-- ==== Sys2Proof/Machine/Assembler.lean ====
section
/-! DEFINITION. The assembler and the disassembler (30_encoding.md R46 to R49). Text is a list of characters. What R46 to
R49 leave open of the lexical form (blanks, where a comment may start, the digits of a literal) is log 12. -/

namespace Sys2Proof.Machine

/-- Why a line is refused (R46). -/
inductive AsmError where
  /-- No statement begins with this word. -/
  | unknownMnemonic
  /-- No `imm8` literal stands where one is due. -/
  | badOperand
  /-- "A value outside 0 to 255 is refused by the assembler and is never truncated" (R46). -/
  | valueOutOfRange
  /-- No text in double quotes stands where one is due, or it does not end. -/
  | badText
  /-- A character a text does not admit, or an escape that R48 does not give. -/
  | badCharacter
  /-- Something stands after the statement that is no comment. -/
  | trailingText
  deriving DecidableEq, Repr

/-! ### Values and expansion -/

/-- An `imm8` as a byte, or refused. -/
def imm8 (v : Nat) : Except AsmError Byte :=
  if immInRange v then .ok (BitVec.ofNat 8 v) else .error .valueOutOfRange

/-- `UPDATEB` (R47): one UPDATE a value, in order. -/
def expandBytes : List Nat → Except AsmError (List Instr)
  | [] => .ok []
  | v :: vs =>
    match imm8 v, expandBytes vs with
    | .ok b, .ok is => .ok (.update b :: is)
    | .error e, _ => .error e
    | .ok _, .error e => .error e

/-- The code of one element of a text (R48). -/
def TextItem.code : TextItem → Except AsmError Byte
  | .char c => if textChar c then .ok (BitVec.ofNat 8 c.toNat) else .error .badCharacter
  | .backslash => .ok 0x5C#8
  | .quote => .ok 0x22#8
  | .byte b => .ok b

/-- `UPDATES` (R48): one UPDATE an element, in order. -/
def expandText : List TextItem → Except AsmError (List Instr)
  | [] => .ok []
  | t :: ts =>
    match t.code, expandText ts with
    | .ok b, .ok is => .ok (.update b :: is)
    | .error e, _ => .error e
    | .ok _, .error e => .error e

/-- The commands a statement stands for (R46 to R49). -/
def Stmt.expand : Stmt → Except AsmError (List Instr)
  | .nop => .ok [.nop]
  | .init => .ok [.init]
  | .update v => (imm8 v).map fun b => [.update b]
  | .final => .ok [.final]
  | .updateb vs => expandBytes vs
  | .updates text => expandText text
  | .hash text => (expandText text).map fun is => .init :: (is ++ [.final])

/-! ### Reading a line -/

/-- A character between tokens. -/
def isBlank (c : Char) : Bool := c == ' ' || c == '\t' || c == '\r'

def skipBlanks : List Char → List Char
  | [] => []
  | c :: cs => if isBlank c then skipBlanks cs else c :: cs

/-- What stands after a statement: nothing, or a comment (R46). -/
def atEnd (cs : List Char) : Bool :=
  match skipBlanks cs with
  | [] => true
  | c :: _ => c == ';'

/-- The word a line begins with, in upper case (R46: mnemonics are case-insensitive), and what follows. -/
def takeWord : List Char → List Char × List Char
  | [] => ([], [])
  | c :: cs => if c.isAlphanum then let r := takeWord cs; (c.toUpper :: r.1, r.2) else ([], c :: cs)

def decDigit (c : Char) : Option Nat :=
  if '0'.toNat ≤ c.toNat ∧ c.toNat ≤ '9'.toNat then some (c.toNat - '0'.toNat) else none

def hexDigit (c : Char) : Option Nat :=
  if '0'.toNat ≤ c.toNat ∧ c.toNat ≤ '9'.toNat then some (c.toNat - '0'.toNat)
  else if 'A'.toNat ≤ c.toNat ∧ c.toNat ≤ 'F'.toNat then some (c.toNat - 'A'.toNat + 10)
  else if 'a'.toNat ≤ c.toNat ∧ c.toNat ≤ 'f'.toNat then some (c.toNat - 'a'.toNat + 10)
  else none

/-- The longest run of digits, `none` where there is no digit. -/
def takeDigits (digit : Char → Option Nat) (base : Nat) : Option Nat → List Char → Option Nat × List Char
  | acc, [] => (acc, [])
  | acc, c :: cs =>
    match digit c with
    | some d => takeDigits digit base (some (acc.getD 0 * base + d)) cs
    | none => (acc, c :: cs)

/-- A literal of R46 (decimal, hexadecimal or a character) at the head of the text. -/
def takeImm : List Char → Except AsmError (Nat × List Char)
  | '\'' :: c :: '\'' :: rest => if printable c then .ok (c.toNat, rest) else .error .badCharacter
  | '0' :: 'x' :: rest =>
    match takeDigits hexDigit 16 none rest with
    | (some v, rest') => .ok (v, rest')
    | (none, _) => .error .badOperand
  | cs =>
    match takeDigits decDigit 10 none cs with
    | (some v, rest') => .ok (v, rest')
    | (none, _) => .error .badOperand

/-- The operands of `UPDATEB` after the first blank: `fuel` is at least the number of characters. -/
def takeImms : Nat → List Char → Except AsmError (List Nat)
  | 0, _ => .error .badOperand
  | fuel + 1, cs =>
    match takeImm (skipBlanks cs) with
    | .error e => .error e
    | .ok (v, rest) =>
      match skipBlanks rest with
      | ',' :: rest' => (takeImms fuel rest').map fun vs => v :: vs
      | rest' => if atEnd rest' then .ok [v] else .error .trailingText

/-- The elements of a text after its opening quote (R48), and what follows its closing quote. DESIGN CHOICE (log 12): the two
digits of `\xHH` may be of either case, on which R48 is silent. -/
def takeText : List Char → Except AsmError (List TextItem × List Char)
  | [] => .error .badText
  | '"' :: rest => .ok ([], rest)
  | '\\' :: '\\' :: rest => (takeText rest).map fun r => (.backslash :: r.1, r.2)
  | '\\' :: '"' :: rest => (takeText rest).map fun r => (.quote :: r.1, r.2)
  | '\\' :: 'x' :: h :: l :: rest =>
    match hexDigit h, hexDigit l with
    | some hi, some lo => (takeText rest).map fun r => (.byte (BitVec.ofNat 8 (hi * 16 + lo)) :: r.1, r.2)
    | _, _ => .error .badCharacter
  | '\\' :: _ => .error .badCharacter
  | c :: rest => if textChar c then (takeText rest).map fun r => (.char c :: r.1, r.2) else .error .badCharacter

/-- A statement's whole operand, a text, with nothing but a comment after it. -/
def readText (cs : List Char) : Except AsmError (List TextItem) :=
  match skipBlanks cs with
  | '"' :: rest =>
    match takeText rest with
    | .error e => .error e
    | .ok (text, rest') => if atEnd rest' then .ok text else .error .trailingText
  | _ => .error .badText

/-- A statement with no operand. -/
def bare (st : Stmt) (cs : List Char) : Except AsmError Stmt :=
  if atEnd cs then .ok st else .error .trailingText

/-- Whether the character after a mnemonic separates it from what follows. -/
def separated : List Char → Bool
  | [] => true
  | c :: _ => isBlank c || c == ';'

/-- One line (R46: one statement a line, `;` starts a comment). DESIGN CHOICE (log 12): a line that holds no statement, empty,
blank or only a comment, is accepted and is `none`; R46 does not say whether such a line is accepted. -/
def readLine (line : List Char) : Except AsmError (Option Stmt) :=
  if atEnd line then .ok none
  else
    let w := takeWord (skipBlanks line)
    if !separated w.2 then .error .unknownMnemonic
    else if w.1 = ['N', 'O', 'P'] then (bare .nop w.2).map some
    else if w.1 = ['I', 'N', 'I', 'T'] then (bare .init w.2).map some
    else if w.1 = ['F', 'I', 'N', 'A', 'L'] then (bare .final w.2).map some
    else if w.1 = ['U', 'P', 'D', 'A', 'T', 'E'] then
      match takeImm (skipBlanks w.2) with
      | .error e => .error e
      | .ok (v, rest) => (bare (.update v) rest).map some
    else if w.1 = ['U', 'P', 'D', 'A', 'T', 'E', 'B'] then
      if atEnd w.2 then .ok (some (.updateb []))
      else (takeImms (w.2.length + 1) w.2).map fun vs => some (.updateb vs)
    else if w.1 = ['U', 'P', 'D', 'A', 'T', 'E', 'S'] then (readText w.2).map fun t => some (.updates t)
    else if w.1 = ['H', 'A', 'S', 'H'] then (readText w.2).map fun t => some (.hash t)
    else .error .unknownMnemonic

/-- The commands one line stands for, none for a line with no statement (log 12). -/
def assembleLine (line : List Char) : Except AsmError (List Instr) :=
  match readLine line with
  | .error e => .error e
  | .ok none => .ok []
  | .ok (some st) => st.expand

/-- The lines of a text. -/
def splitLines : List Char → List (List Char)
  | [] => [[]]
  | c :: cs =>
    if c = '\n' then [] :: splitLines cs
    else
      match splitLines cs with
      | [] => [[c]]
      | l :: ls => (c :: l) :: ls

/-- The commands of all lines, in order. DESIGN CHOICE (log 12): one refused line refuses the whole text, no command of
another line is yielded, and the reason named is that of the first refused line. R46 says what a line is refused for, not
what becomes of the others. -/
def assembleLines : List (List Char) → Except AsmError (List Instr)
  | [] => .ok []
  | l :: ls =>
    match assembleLine l, assembleLines ls with
    | .ok is, .ok js => .ok (is ++ js)
    | .error e, _ => .error e
    | .ok _, .error e => .error e

/-- A whole text as command words (R45, R46). -/
def assemble (text : List Char) : Except AsmError (List CmdWord) :=
  (assembleLines (splitLines text)).map fun is => is.map encode

/-! ### Printing -/

/-- A hex digit in upper case (R46). -/
def hexChar (n : Nat) : Char := if n < 10 then Char.ofNat ('0'.toNat + n) else Char.ofNat ('A'.toNat + (n - 10))

/-- R46: `UPDATE 0xHH`; the others by their mnemonic, the ignored bits not shown. -/
def printInstr : Instr → List Char
  | .nop => ['N', 'O', 'P']
  | .init => ['I', 'N', 'I', 'T']
  | .update c =>
    ['U', 'P', 'D', 'A', 'T', 'E', ' ', '0', 'x', hexChar (c.toNat / 16), hexChar (c.toNat % 16)]
  | .final => ['F', 'I', 'N', 'A', 'L']

/-- The disassembler (R46). -/
def disassemble (w : CmdWord) : List Char := printInstr (decode w)

end Sys2Proof.Machine
end

