-- ==== Sys2Proof/Machine/Flags.lean ====
section
/-! DEFINITION. The core has no flags, condition codes or status bits (10_state.md R18), so no flag is computed. The one
bit it drives beside its data is `rsp_valid`, with the word on `rsp_digest` beside it (30_encoding.md R39, R42). -/

namespace Sys2Proof.Machine

/-- `rsp_valid` in the cycle just ended (R42). -/
def rspValid (s : State) : Bool := s.rsp.isSome

/-- `rsp_digest` in the cycle just ended, where `rsp_valid` is 1. Where it is 0 the value is unspecified and the model has
none (R42; 93_implementation_defined.md I6). -/
def rspDigest (s : State) : Option Word := s.rsp.map digestWord

end Sys2Proof.Machine
end

