-- ==== Sys2Proof/Machine/Bus.lean ====
section
/-! DEFINITION. `HOST_BINDING`, the open parameter: how the command port AND the response port are attached to a host's bus
(00_scope.md R7; 20_memory.md R34; 92_eei_decisions.md D16). The core fixes no address and no handshake, so a binding is
any machine between the two: it has a state of its own, turns what the bus does in a cycle into the input ports, and turns
the output ports into what the bus sees (log 16). A claim about a bus-level host supplies one. -/

namespace Sys2Proof.Machine

/-- The input ports of R39 in one cycle: `rst`, and the words presented on `cmd_word` (`cmd_valid` where there is one). -/
structure InputPorts where
  rst : Bool
  words : List CmdWord
  deriving DecidableEq, Repr

/-- The output ports of R39 in one cycle: `cmd_ready`, `rsp_valid`, and `rsp_digest`, which has no value where `rsp_valid`
is 0 (R42). -/
structure OutputPorts where
  cmdReady : Bool
  rspValid : Bool
  rspDigest : Option Word
  deriving DecidableEq, Repr

/-- A host binding: `attach` drives the input ports from what the bus does, `reply` gives the bus what the output ports show
and updates the binding's own state (an address latched, a digest held for a later read, a handshake). -/
structure HostBinding (BindState BusEvent BusReply : Type) where
  attach : BindState → BusEvent → InputPorts
  reply : BindState → BusEvent → OutputPorts → BindState × BusReply

/-- The port cycle of a bus event, in a cycle with this `cmd_ready` (log 3). -/
def busCycle {σ ε ρ : Type} (b : HostBinding σ ε ρ) (st : σ) (e : ε) (ready : Bool) : PortCycle :=
  { rst := (b.attach st e).rst, ready := ready, words := (b.attach st e).words }

/-- What the output ports show in the cycle that ended in `t`. -/
def outputPorts (ready : Bool) (t : State) : OutputPorts :=
  { cmdReady := ready, rspValid := rspValid t, rspDigest := rspDigest t }

/-- A run through a binding: the binding's state at its end, what the bus saw, the port cycles there were, the instance. -/
structure BusTrace (BindState BusReply : Type) where
  bound : BindState
  replies : List BusReply
  cycles : List PortCycle
  inst : State

/-- A run of bus events, each with the `cmd_ready` of its cycle. What the binding drives may depend on every response before
it. A refused cycle refuses the run (60_exceptions.md R74). -/
def busRun {σ ε ρ : Type} (b : HostBinding σ ε ρ) :
    σ → List (ε × Bool) → State → Host.Outcome (BusTrace σ ρ) Fault Refusal
  | st, [], s => .next ⟨st, [], [], s⟩
  | st, (e, ready) :: rest, s =>
    match step (setInputs (.cycle (busCycle b st e ready) :: s.inputs) s) with
    | .next t =>
      match busRun b (b.reply st e (outputPorts ready t)).1 rest t with
      | .next u =>
        .next ⟨u.bound, (b.reply st e (outputPorts ready t)).2 :: u.replies, busCycle b st e ready :: u.cycles, u.inst⟩
      | .fault r => .fault r
      | .refused r => .refused r
    | .fault r => .fault r
    | .refused r => .refused r

end Sys2Proof.Machine
end

