-- ==== Sys2Proof/Machine/Stream.lean ====
section
/-! DEFINITION. Streams of bytes (41_accumulator.md R65), and the same CRC one bit at a time: the reflected division that
20_memory.md R29 and 40_table_gen.md R51 describe, which the table speeds up (log 14). -/

namespace Sys2Proof.Machine

/-- `CRC_STREAM` (R65). -/
def crcStream (crc : Word) : List Byte → Word
  | [] => crc
  | b :: rest => crcStream (crcStep crc b) rest

/-- The CRC of a message (R65). -/
def messageCrc (msg : List Byte) : Word := crcStream Config.initValue msg

/-- The digest of a message (R65). -/
def messageDigest (msg : List Byte) : Digest := be4 (messageCrc msg)

/-- One bit of the division: the bit is XORed into bit 0 of the register, then one round (R29, R51; log 14). -/
def crcBit (crc : Word) (b : Bool) : Word := genRound (crc ^^^ (BitVec.ofBool b).setWidth 32)

/-- The bits of a stream, in order. -/
def crcBits (crc : Word) : List Bool → Word
  | [] => crc
  | b :: rest => crcBits (crcBit crc b) rest

end Sys2Proof.Machine
end

