-- ==== Sys2Proof/Machine/Run.lean ====
section
/-! DEFINITION. Runs of one instance and what the host observes of one (70_reset_and_hazards.md R93 to R95), and the
command-level meaning of 41_accumulator.md R59 written on the record of `crc` alone, for comparison (log 13). -/

namespace Sys2Proof.Machine

/-- `n` cycles, stopping at a refusal, which is of the whole state (R74). -/
def runFor : Nat → State → Host.Outcome State Fault Refusal
  | 0, s => .next s
  | n + 1, s =>
    match step s with
    | .next t => runFor n t
    | .fault r => .fault r
    | .refused r => .refused r

/-- "The observation of a run is the list of digests its FINALs returned, in order, together with the final `crc`" (R95). -/
structure Observation where
  digests : List Digest
  crc : Word
  deriving DecidableEq, Repr

/-- What the host observes over `n` cycles. A refused cycle refuses the whole run (R74). DESIGN CHOICE (log 5): of a run that
ends before a reset, after a loss of power, the final `crc` is the free value of `losePower`, where the spec has none; a
claim about the final `crc` of a run is about runs that end in an instance that was reset. -/
def observe : Nat → State → Host.Outcome Observation Fault Refusal
  | 0, s => .next ⟨[], s.crc⟩
  | n + 1, s =>
    match step s with
    | .next t =>
      match observe n t with
      | .next o => .next ⟨t.rsp.toList ++ o.digests, o.crc⟩
      | .fault r => .fault r
      | .refused r => .refused r
    | .fault r => .fault r
    | .refused r => .refused r

/-- The inputs by which one serialised driver presents words, one a cycle, each accepted at once. -/
def commands (ws : List CmdWord) : List HostEvent := ws.map fun w => .cycle (commandCycle w)

/-- The canonical words of `UPDATEB` of these bytes (30_encoding.md R47). -/
def updateWords (bs : List Byte) : List CmdWord := bs.map fun b => encode (.update b)

/-- The canonical words of one whole hash computation (R49): INIT, the bytes, FINAL. -/
def hashWords (bs : List Byte) : List CmdWord := encode .init :: (updateWords bs ++ [encode .final])

/-- What an instance does in a cycle, seen from its commands: it is reset or takes one command. -/
inductive Action where
  | reset
  | command (w : CmdWord)
  deriving DecidableEq, Repr

/-- The action of a cycle, `none` where it is idle or held (R39, R76). -/
def cycleAction (p : PortCycle) : Option Action :=
  match p.rst, p.ready, p.words with
  | true, _, _ => some .reset
  | false, true, [w] => some (.command w)
  | false, true, [] => none
  | false, true, _ :: _ :: _ => none
  | false, false, _ => none

/-- R59 on the record `{crc}`: the register after a step, and the response. -/
def commandEffect (crc : Word) (w : CmdWord) : Word × Option Digest :=
  match decode w with
  | .nop => (crc, none)
  | .init => (0x00000000#32, none)
  | .update c => (crcStep crc c, none)
  | .final => (crc, some (be4 crc))

/-- R59 and R85 over a list of actions: no cycles, no latency, no ports. -/
def runActions (crc : Word) : List Action → Observation
  | [] => ⟨[], crc⟩
  | .reset :: rest => runActions 0x00000000#32 rest
  | .command w :: rest =>
    let e := commandEffect crc w
    let o := runActions e.1 rest
    ⟨e.2.toList ++ o.digests, o.crc⟩

end Sys2Proof.Machine
end

