-- ==== Sys2Proof/Machine/System.lean ====
section
/-! DEFINITION. Several instances (60_exceptions.md R81; 20_memory.md R36). Each has a state of its own; the table is one
function, so that shared and copied tables are the same thing (00_scope.md R7 `TABLE_SHARING`; log 11). -/

namespace Sys2Proof.Machine

/-- Instance `k` takes one step, the others none. An index past the end names no instance: nothing happens. A refused
step refuses the whole (R74). -/
def stepInstance : Nat → List State → Host.Outcome (List State) Fault Refusal
  | _, [] => .next []
  | 0, s :: rest =>
    match step s with
    | .next t => .next (t :: rest)
    | .fault r => .fault r
    | .refused r => .refused r
  | k + 1, s :: rest =>
    match stepInstance k rest with
    | .next rest' => .next (s :: rest')
    | .fault r => .fault r
    | .refused r => .refused r

end Sys2Proof.Machine
end

