-- ==== Sys2Proof/Safety.lean ====
section
/-! DEFINITION. What a safe run is: the invariant every step keeps (10_state.md R15), and the host's duties under which no
step is refused (60_exceptions.md R74, R82; 70_reset_and_hazards.md R93). -/

namespace Sys2Proof.Machine

/-- R15: `crc[31:16] == 0`. Before the first reset the register holds no known value (R23), so nothing is said of it there. -/
abbrev highBitsZero (s : State) : Prop := s.condition = .operational → highHalf s.crc = 0#16

/-- A digest on the response port is `BE4` of the register as it stands, of an instance that was reset (R42, R64, R74). That a loss
of power leaves no digest there is the model's choice (log 6). -/
abbrev responseShowsCrc (s : State) : Prop :=
  ∀ d, s.rsp = some d → s.condition = .operational ∧ d = be4 s.crc

/-- The invariant of the machine. -/
abbrev stateInv (s : State) : Prop := highBitsZero s ∧ responseShowsCrc s

/-- The premise R94 allows a claim to start from: an instance that was reset, with the upper half of `crc` zero. -/
abbrev launched (s : State) : Prop := s.condition = .operational ∧ highHalf s.crc = 0#16

/-- The host's duties, from a condition on: no command before the first reset, and one driver at a time (R93). -/
def disciplined : Condition → List HostEvent → Bool
  | _, [] => true
  | _, .powerLoss :: rest => disciplined .preReset rest
  | c, .cycle p :: rest =>
    match p.rst, p.ready, p.words with
    | true, _, _ => disciplined .operational rest
    | false, false, _ => disciplined c rest
    | false, true, [] => disciplined c rest
    | false, true, [_] => decide (c = .operational) && disciplined c rest
    | false, true, _ :: _ :: _ => false

end Sys2Proof.Machine
end

