-- ==== Sys2Proof/Certificates/Slice0/Obligations.lean ====
section
/-! DEFINITION. The statements for the provers. Each docstring names the rule of spec/ it formalises. -/

open Sys2Proof Sys2Proof.Machine

/-! ### The table generator -/

/-- R51: one round, its corner cases and its worked example; no value met from an 8-bit start has a bit above 15. -/
def Obligations.GenRoundShiftsAndXors : Prop :=
  (∀ r : Word, r.getLsbD 0 = true → genRound r = (r >>> 1) ^^^ 0x0000A001#32) ∧
  (∀ r : Word, r.getLsbD 0 = false → genRound r = r >>> 1) ∧
  genRound 0#32 = 0#32 ∧ genRound 1#32 = 0x0000A001#32 ∧ genRound 0x00000080#32 = 0x00000040#32 ∧
  (∀ (n : Nat) (i : Byte), (genRounds n (i.setWidth 32)).extractLsb' 16 16 = 0#16)

/-- R52: an entry is eight rounds from the zero-extended index, on the generator port too; its corner cases and its
worked example, with entry 1 as 90_conflicts.md C1 decides. -/
def Obligations.TableEntryIsEightRounds : Prop :=
  (∀ i : Byte, tableEntry i =
    genRound (genRound (genRound (genRound (genRound (genRound (genRound (genRound (i.setWidth 32))))))))) ∧
  (∀ i : Byte, tgEntry i = tableEntry i) ∧
  tableEntry 0x00#8 = 0x0000#32 ∧ tableEntry 0x01#8 = 0xC0C1#32 ∧ tableEntry 0x80#8 = 0xA001#32 ∧
  tableEntry 0xFF#8 = 0x4040#32 ∧ tableEntry 0x31#8 = 0xD4C1#32

/-- R55: every entry is at most 0xFFFF, its upper half is zero, and the largest entry is entry 0x54, which is 0xFF01. -/
def Obligations.TableEntriesFitSixteenBits : Prop :=
  (∀ i : Byte, tableEntry i ≤ 0xFFFF#32 ∧ (tableEntry i).extractLsb' 16 16 = 0#16) ∧
  tableEntry 0x54#8 = 0xFF01#32 ∧ ∀ i : Byte, tableEntry i ≤ tableEntry 0x54#8

/-- R56: zero, linearity, the entry as the XOR of the basis entries of the index's bits, the basis, and injectivity. -/
def Obligations.TableIsLinearAndInjective : Prop :=
  tableEntry 0#8 = 0#32 ∧
  (∀ a b : Byte, tableEntry (a ^^^ b) = tableEntry a ^^^ tableEntry b) ∧
  (∀ i : Byte, tableEntry i =
    ((List.range 8).map fun k => if i.getLsbD k then tableEntry (1#8 <<< k) else 0#32).foldl (· ^^^ ·) 0#32) ∧
  ((List.range 8).map fun k => tableEntry (1#8 <<< k)) =
    [0xC0C1#32, 0xC181#32, 0xC301#32, 0xC601#32, 0xCC01#32, 0xD801#32, 0xF001#32, 0xA001#32] ∧
  (∀ a b : Byte, tableEntry a = tableEntry b → a = b)

/-- R57: the complete listing is the table, entry by entry, with the upper half of each entry zero. -/
def Obligations.RomListingIsTheTable : Prop :=
  rom.length = 256 ∧ (∀ i : Byte, rom[i.toNat]? = some (tableEntry i)) ∧
  (rom.all fun v => v.extractLsb' 16 16 == 0#16) = true

/-- R54, R87: whichever realisation the table has, it becomes complete and stays so, and from then on every lookup answers
the entry. The pace of the RAM fill, one entry a tick, is the model's (log 10). -/
def Obligations.TableRealisationsAgree : Prop :=
  (∀ impl : Config.TableImpl, ∃ n, ∀ m, n ≤ m → tableReady impl m = true) ∧
  (∀ (impl : Config.TableImpl) (n : Nat) (i : Byte),
    tableReady impl n = true → tableLookup impl n i = some (tableEntry i))

/-- R87, R91: where `cmd_ready` waits for the fill, a cycle that accepts a command finds every entry it may read filled with
the entry the model reads. One tick a cycle is the model's pace (log 10). -/
def Obligations.AcceptedCyclesReadFilledEntries : Prop :=
  ∀ (impl : Config.TableImpl) (ticks : Nat) (ps : List PortCycle), readyOnlyWhenFilled impl ticks ps = true →
    ∀ (j : Nat) (p : PortCycle), ps[j]? = some p → p.ready = true →
      ∀ i : Byte, tableLookup impl (ticks + j) i = some (tableRead i)

/-- R12: the reflected polynomial is the bit reversal of the normal form over 16 bits. -/
def Obligations.ReflectedPolynomialIsReversal : Prop :=
  Config.polyRefl.extractLsb' 16 16 = 0#16 ∧
  ∀ k : Fin 16, Config.polyRefl.getLsbD k = Config.polyNormal.getLsbD (15 - k)

/-! ### The recurrence and streams -/

/-- R61: the index, the recurrence at the full 32 bits, what the shift moves and fills, and the form it takes where the
upper half of the register is zero. -/
def Obligations.CrcStepIsTableXorShift : Prop :=
  (∀ (crc : Word) (c : Byte), crcIndex crc c = crc.extractLsb' 0 8 ^^^ c) ∧
  (∀ (crc : Word) (c : Byte),
    crcStep crc c = tableRead (((crc ^^^ c.setWidth 32) &&& 0x000000FF#32).extractLsb' 0 8) ^^^ (crc >>> 8)) ∧
  (∀ i : Byte, tableRead i = tableEntry i) ∧
  (∀ crc : Word, (crc >>> 8).extractLsb' 0 24 = crc.extractLsb' 8 24 ∧ (crc >>> 8).extractLsb' 24 8 = 0#8) ∧
  (∀ (crc : Word) (c : Byte), crc.extractLsb' 16 16 = 0#16 →
    crcStep crc c = tableEntry (crc.extractLsb' 0 8 ^^^ c) ^^^ (crc.extractLsb' 8 8).setWidth 32)

/-- R69: the step is XOR-linear in the pair of register and byte. -/
def Obligations.CrcStepIsLinear : Prop :=
  ∀ (crc1 crc2 : Word) (c1 c2 : Byte),
    crcStep (crc1 ^^^ crc2) (c1 ^^^ c2) = crcStep crc1 c1 ^^^ crcStep crc2 c2

/-- R65 on the machine: UPDATE commands for the bytes of a stream, one a cycle, leave the register at `CRC_STREAM` of it and
change nothing else but the response port; none of them for the empty stream. -/
def Obligations.UpdateCommandsComputeStream : Prop :=
  ∀ (s : State) (bs : List Byte) (rest : List HostEvent),
    s.condition = .operational → s.inputs = commands (updateWords bs) ++ rest →
    runFor bs.length s =
      .next { s with crc := crcStream s.crc bs, rsp := if bs.isEmpty then s.rsp else none, inputs := rest }

/-- R65: the stream function's equations, the empty stream, chunk-boundary invariance, the CRC and digest of a message. -/
def Obligations.StreamChunkInvariance : Prop :=
  (∀ crc : Word, crcStream crc [] = crc) ∧
  (∀ (crc : Word) (b : Byte) (rest : List Byte), crcStream crc (b :: rest) = crcStream (crcStep crc b) rest) ∧
  (∀ (crc : Word) (a b : List Byte), crcStream (crcStream crc a) b = crcStream crc (a ++ b)) ∧
  (∀ msg : List Byte, messageCrc msg = crcStream 0#32 msg ∧ messageDigest msg = be4 (crcStream 0#32 msg))

/-- R29, R51, R61: the table-driven stream is the bit-at-a-time reflected division with the bits of each byte taken from
bit 0 up, from every 32-bit register value. The bit-at-a-time form is the model's reading of R29 (log 14). -/
def Obligations.TableDrivenIsBitSerial : Prop :=
  ∀ (crc : Word) (bs : List Byte), crcStream crc bs = crcBits crc (bs.flatMap bitsLsbFirst)

/-- 95_test_vectors.md V2.8, from R61: a message followed by its own CRC, low byte first, returns the register to 0. -/
def Obligations.ResidueIsZero : Prop :=
  ∀ msg : List Byte,
    crcStream 0#32 (msg ++ [(messageCrc msg).extractLsb' 0 8, (messageCrc msg).extractLsb' 8 8]) = 0#32

/-- R30: the digest is the four bytes of the value, most significant first, all of them, and the first two are zero where
the upper half of the value is. -/
def Obligations.DigestIsBigEndian : Prop :=
  (∀ v : Word, (be4 v).toList =
    [v.extractLsb' 24 8, v.extractLsb' 16 8, v.extractLsb' 8 8, v.extractLsb' 0 8]) ∧
  (∀ v w : Word, be4 v = be4 w → v = w) ∧
  (∀ v : Word, v.extractLsb' 16 16 = 0#16 → (be4 v).byte0 = 0#8 ∧ (be4 v).byte1 = 0#8)

/-- R31: the response word carries byte0 in bits 31:24 down to byte3 in bits 7:0, so it is the register's value; a host that
stores the digest puts byte0 at the lowest address. -/
def Obligations.ResponseWordCarriesDigest : Prop :=
  (∀ d : Digest, (digestWord d).extractLsb' 24 8 = d.byte0 ∧ (digestWord d).extractLsb' 16 8 = d.byte1 ∧
    (digestWord d).extractLsb' 8 8 = d.byte2 ∧ (digestWord d).extractLsb' 0 8 = d.byte3) ∧
  (∀ v : Word, digestWord (be4 v) = v) ∧ (∀ d : Digest, be4 (digestWord d) = d) ∧
  (∀ (base : Nat) (d : Digest), (digestCells base d).map Prod.fst = [base, base + 1, base + 2, base + 3] ∧
    (digestCells base d).map Prod.snd = d.toList)

/-! ### The commands -/

/-- R60: NOP answers a next state from every state, with only the response port cleared; every data field; a NOP between
two UPDATEs does not change the result. -/
def Obligations.NopChangesNothing : Prop :=
  (∀ s : State, exec .nop s = .next { s with rsp := none }) ∧
  (∀ d : Byte, decode (0x000#10 ||| d.setWidth 10) = .nop) ∧ encode .nop = 0x000#10 ∧
  (∀ (s t u : State) (a b : Byte), exec (.update a) s = .next t → exec .nop t = .next u →
    exec (.update b) u = exec (.update b) t)

/-- R62: INIT answers a next state from every state, with the register 0 and no response; every data field; after reset it
has no effect; two in a row equal one. -/
def Obligations.InitClearsCrc : Prop :=
  (∀ s : State, exec .init s = .next { s with crc := 0x00000000#32, rsp := none }) ∧
  (∀ d : Byte, decode (0x100#10 ||| d.setWidth 10) = .init) ∧ encode .init = 0x100#10 ∧
  exec .init State.reset = .next State.reset ∧
  (∀ s t : State, exec .init s = .next t → exec .init t = .next t)

/-- R63: UPDATE answers a next state from every state and for every byte, with the register at `CRC_STEP` and no response;
its encoding; its corner cases: the zero byte from zero, the byte equal to the register's low byte, all ones, and the
upper half that stays zero; its example. -/
def Obligations.UpdateFoldsOneByte : Prop :=
  (∀ (c : Byte) (s : State), exec (.update c) s =
    .next { s with crc := tableEntry (s.crc.extractLsb' 0 8 ^^^ c) ^^^ (s.crc >>> 8), rsp := none }) ∧
  (∀ (c : Byte) (s : State), exec (.update c) s = .next { s with crc := crcStep s.crc c, rsp := none }) ∧
  (∀ c : Byte, decode (0x200#10 ||| c.setWidth 10) = .update c ∧ encode (.update c) = 0x200#10 ||| c.setWidth 10) ∧
  (∀ s : State, s.crc = 0#32 → exec (.update 0x00#8) s = .next { s with rsp := none }) ∧
  (∀ s : State, exec (.update (s.crc.extractLsb' 0 8)) s = .next { s with crc := s.crc >>> 8, rsp := none }) ∧
  (∀ s : State, s.crc = 0x00FF#32 → exec (.update 0xFF#8) s = .next { s with crc := 0x0000#32, rsp := none }) ∧
  (∀ s : State, s.crc = 0xFFFF#32 → exec (.update 0xFF#8) s = .next { s with crc := 0x00FF#32, rsp := none }) ∧
  (∀ s : State, s.crc = 0x0000#32 → exec (.update 0x31#8) s = .next { s with crc := 0xD4C1#32, rsp := none }) ∧
  (∀ (c : Byte) (s t : State), s.crc.extractLsb' 16 16 = 0#16 → exec (.update c) s = .next t →
    t.crc.extractLsb' 16 16 = 0#16)

/-- R64: FINAL answers a next state from every state, with the digest of the register on the response port and the register
not written; the ports; every data field; zero after reset and after INIT; two in a row return one digest; a later UPDATE
goes on from the same register; the first two bytes are zero where the register's upper half is; its example. -/
def Obligations.FinalReturnsDigest : Prop :=
  (∀ s : State, exec .final s = .next { s with rsp := some (be4 s.crc) }) ∧
  (∀ s t : State, exec .final s = .next t → rspValid t = true ∧ rspDigest t = some s.crc) ∧
  (∀ d : Byte, decode (0x300#10 ||| d.setWidth 10) = .final) ∧ encode .final = 0x300#10 ∧
  exec .final State.reset = .next { State.reset with rsp := some ⟨0#8, 0#8, 0#8, 0#8⟩ } ∧
  (∀ s t : State, exec .init s = .next t → exec .final t = .next { t with rsp := some ⟨0#8, 0#8, 0#8, 0#8⟩ }) ∧
  (∀ s t : State, exec .final s = .next t → exec .final t = .next t) ∧
  (∀ (c : Byte) (s t : State), exec .final s = .next t → exec (.update c) t = exec (.update c) s) ∧
  (∀ s t : State, s.crc.extractLsb' 16 16 = 0#16 → exec .final s = .next t →
    t.rsp = some ⟨0#8, 0#8, s.crc.extractLsb' 8 8, s.crc.extractLsb' 0 8⟩) ∧
  (∀ s : State, s.crc = 0xBB3D#32 → exec .final s = .next { s with rsp := some ⟨0x00#8, 0x00#8, 0xBB#8, 0x3D#8⟩ })

/-- The frame of all four commands (R14, R18, R33): the condition, the host's list and the table stay; the register stays
but for INIT and UPDATE; the response port holds a digest only after FINAL. -/
def Obligations.CommandsFrame : Prop :=
  ∀ (i : Instr) (s t : State), exec i s = .next t →
    t.condition = s.condition ∧ t.inputs = s.inputs ∧ t.powerLosses = s.powerLosses ∧
    (i = .nop ∨ i = .final → t.crc = s.crc) ∧ (i ≠ .final → rspValid t = false) ∧ (i = .final → rspValid t = true)

/-- R14's access table: NOP and INIT do not read the register, FINAL and UPDATE read it, FINAL all 32 bits; NOP and FINAL do
not write it. -/
def Obligations.CrcAccessByCommand : Prop :=
  (∀ (s t : State) (v : Word), exec .nop s = .next t → exec .nop { s with crc := v } = .next { t with crc := v }) ∧
  (∀ (s : State) (v : Word), exec .init { s with crc := v } = exec .init s) ∧
  (∀ (s t u : State) (v : Word), exec .final s = .next t → exec .final { s with crc := v } = .next u →
    t.rsp = u.rsp → v = s.crc) ∧
  (∀ k : Fin 32, ∃ (s t u : State) (c : Byte) (v : Word), exec (.update c) s = .next t ∧
    exec (.update c) { s with crc := v } = .next u ∧ v = s.crc ^^^ (1#32 <<< (k : Nat)) ∧ t.crc ≠ u.crc) ∧
  (∀ (i : Instr) (s t : State), i = .nop ∨ i = .final → exec i s = .next t → t.crc = s.crc)

/-- R33: every command but UPDATE is idempotent, and UPDATE is not: two of 0xFF from 0 give 0xB001, one gives 0x4040. -/
def Obligations.IdempotentCommands : Prop :=
  (∀ (i : Instr) (s t : State), (∀ c : Byte, i ≠ .update c) → exec i s = .next t → exec i t = .next t) ∧
  (∀ s : State, s.crc = 0#32 → ∃ t u : State, exec (.update 0xFF#8) s = .next t ∧ t.crc = 0x4040#32 ∧
    exec (.update 0xFF#8) t = .next u ∧ u.crc = 0xB001#32)

/-- R71, R72: every command has a next state from every state, every word is a command that has one, and no step is a
fault. -/
def Obligations.NoExceptionExists : Prop :=
  (∀ (i : Instr) (s : State), ∃ t : State, exec i s = .next t) ∧
  (∀ (w : CmdWord) (s : State), ∃ t : State, exec (decode w) s = .next t) ∧
  (∀ (s : State) (r : Fault), step s ≠ .fault r)

/-! ### Encoding and the assembler -/

/-- R45: decoding follows bits 9:8, decoding an encoded command gives it back, and encoding a decoded word gives its
canonical word: the word itself for UPDATE, the ignored bits cleared for the others. -/
def Obligations.DecodeEncodeAgree : Prop :=
  (∀ i : Instr, i.wellFormed = true → decode (encode i) = i) ∧
  (∀ w : CmdWord, opOf w = (decode w).op) ∧
  (∀ w : CmdWord, opOf w = 0b10#2 → decode w = .update (w.extractLsb' 0 8)) ∧
  (∀ w : CmdWord, encode (decode w) = if opOf w = 0b10#2 then w else w &&& 0x300#10)

/-- R43: each word lies in exactly one row of the opcode table, the row of the command it decodes to, and the data bits of
NOP, INIT and FINAL select nothing. -/
def Obligations.EveryWordIsOneCommand : Prop :=
  (∀ w : CmdWord, (opcodeRows.filter fun r => r.covers w) = [(decode w).row]) ∧
  (∀ v w : CmdWord, opOf v = opOf w → opOf v ≠ 0b10#2 → decode v = decode w)

/-- R50: the canonical encodings of the listing, and its non-canonical FINAL, decode to what they stand for. -/
def Obligations.CanonicalWordsDecode : Prop :=
  decode 0b0000000000#10 = .nop ∧ decode 0b0100000000#10 = .init ∧ decode 0b1000000000#10 = .update 0x00#8 ∧
  decode 0b1000110001#10 = .update 0x31#8 ∧ decode 0b1011111111#10 = .update 0xFF#8 ∧
  decode 0b1100000000#10 = .final ∧ decode 0b1110100101#10 = .final ∧
  encode .nop = 0b0000000000#10 ∧ encode .init = 0b0100000000#10 ∧ encode (.update 0x00#8) = 0b1000000000#10 ∧
  encode (.update 0x31#8) = 0b1000110001#10 ∧ encode (.update 0xFF#8) = 0b1011111111#10 ∧
  encode .final = 0b1100000000#10

/-- R47: `UPDATEB` of values in range is one UPDATE a value, in order, and nothing for no value. -/
def Obligations.UpdatebExpandsInOrder : Prop :=
  (Stmt.updateb []).expand = .ok [] ∧
  ∀ bs : List Byte, (Stmt.updateb (bs.map BitVec.toNat)).expand = .ok (bs.map Instr.update)

/-- R48: `UPDATES` of a text is `UPDATEB` of its codes, in order; what each element's code is; nothing for no text; a
character outside the range admits no expansion. -/
def Obligations.UpdatesExpandsCodes : Prop :=
  (Stmt.updates []).expand = .ok [] ∧
  (∀ (text : List TextItem) (codes : List Byte), text.map TextItem.code = codes.map Except.ok →
    (Stmt.updates text).expand = (Stmt.updateb (codes.map BitVec.toNat)).expand) ∧
  (∀ c : Char, 0x20 ≤ c.toNat → c.toNat ≤ 0x7E → c ≠ '"' → c ≠ '\\' →
    ∃ b : Byte, (TextItem.char c).code = .ok b ∧ b.toNat = c.toNat) ∧
  (∀ c : Char, c.toNat < 0x20 ∨ 0x7E < c.toNat ∨ c = '"' ∨ c = '\\' →
    ∃ e, (TextItem.char c).code = .error e) ∧
  TextItem.backslash.code = .ok (BitVec.ofNat 8 '\\'.toNat) ∧ TextItem.quote.code = .ok (BitVec.ofNat 8 '"'.toNat) ∧
  (∀ b : Byte, (TextItem.byte b).code = .ok b)

/-- R49: `HASH` is INIT, then `UPDATES` of its text, then FINAL. -/
def Obligations.HashExpandsToWholeComputation : Prop :=
  ∀ (text : List TextItem) (is : List Instr), (Stmt.updates text).expand = .ok is →
    (Stmt.hash text).expand = .ok ([.init] ++ is ++ [.final])

/-- R46: a statement expands exactly where it is well formed, so a value outside 0 to 255 is refused, and never truncated. -/
def Obligations.IllFormedStatementsRefused : Prop :=
  (∀ st : Stmt, (∃ is, st.expand = .ok is) ↔ st.wellFormed = true) ∧
  (∀ v : Nat, 255 < v → (Stmt.update v).expand = .error .valueOutOfRange) ∧
  (∀ (v : Nat) (is : List Instr), (Stmt.update v).expand = .ok is → ∃ c : Byte, is = [.update c] ∧ c.toNat = v)

/-- R46: assembling what the disassembler prints of a word gives the word's canonical form. -/
def Obligations.AssembleDisassemble : Prop :=
  (∀ i : Instr, assembleLine (printInstr i) = .ok [i]) ∧
  (∀ w : CmdWord, assemble (disassemble w) = .ok [encode (decode w)])

/-! ### Steps, reset and refusals -/

/-- R24: the register is 0 after reset and after INIT, and the table's entries are `TABLE(i)` at every time, since reading
one looks at no state. -/
def Obligations.ResetAndInitValues : Prop :=
  State.reset.crc = 0x00000000#32 ∧ (∀ s t : State, exec .init s = .next t → t.crc = 0x00000000#32) ∧
  ∀ i : Byte, tableRead i = tableEntry i

/-- R94: the launch state is launched, has no command in flight, and meets the invariant. The empty list of inputs and the
count of power losses are the model's choice (log 2, log 5). -/
def Obligations.ResetMeetsInvariant : Prop :=
  stateInv State.reset ∧ launched State.reset ∧ State.reset.rsp = none ∧ State.reset.inputs = []

/-- R85: a cycle with `rst = 1` sets the register to 0 and ends the pre-reset condition, whatever is presented and from
every state, with no response; a second such cycle changes nothing; the next command is accepted. -/
def Obligations.ResetSignalClears : Prop :=
  (∀ (s : State) (p : PortCycle) (rest : List HostEvent), s.inputs = .cycle p :: rest → p.rst = true →
    step s = .next { s with crc := 0x00000000#32, condition := .operational, rsp := none, inputs := rest }) ∧
  (∀ (s t : State) (p q : PortCycle) (rest : List HostEvent), s.inputs = .cycle p :: .cycle q :: rest →
    p.rst = true → q.rst = true → step s = .next t → step t = .next { t with inputs := rest }) ∧
  (∀ (s t : State) (p : PortCycle) (w : CmdWord) (rest : List HostEvent),
    s.inputs = .cycle p :: .cycle (commandCycle w) :: rest → p.rst = true → step s = .next t →
    step t = exec (decode w) { t with inputs := rest })

/-- R39, R59: where one word is presented, accepted and not reset, the step is the command it decodes to, on the state with
the event taken off the host's list. The second clause, a word given as a number and placed by withFetchWord, is the
model's choice (log 8 for the number, log 2 for the host's list), on which the spec is silent. -/
def Obligations.StepRunsDecodedCommand : Prop :=
  (∀ (s : State) (w : CmdWord) (rest : List HostEvent), s.condition = .operational →
    s.inputs = .cycle (commandCycle w) :: rest → step s = exec (decode w) { s with inputs := rest }) ∧
  (∀ (s : State) (nbits w : Nat) (i : Instr), s.condition = .operational → decodeTableWord nbits w = some i →
    step (s.withFetchWord nbits w) = exec i s)

/-- R59: one step on a command word, written as the register after it and the response. -/
def Obligations.StepEffectOfEachCommand : Prop :=
  ∀ (s : State) (w : CmdWord) (rest : List HostEvent), s.condition = .operational →
    s.inputs = .cycle (commandCycle w) :: rest →
    (decode w = .nop → step s = .next { s with rsp := none, inputs := rest }) ∧
    (decode w = .init → step s = .next { s with crc := 0#32, rsp := none, inputs := rest }) ∧
    (∀ c : Byte, decode w = .update c →
      step s = .next { s with crc := crcStep s.crc c, rsp := none, inputs := rest }) ∧
    (decode w = .final → step s = .next { s with rsp := some (be4 s.crc), inputs := rest })

/-- R39, R42: a cycle in which no command is accepted and `rst` is 0 changes nothing, and `rsp_valid` is 0 in it. With no
event left the cycle is idle, which is the model's choice (log 2). -/
def Obligations.CyclesWithoutStepChangeNothing : Prop :=
  (∀ (s : State) (p : PortCycle) (rest : List HostEvent), s.inputs = .cycle p :: rest → p.rst = false →
    p.ready = false ∨ p.words = [] → step s = .next { s with rsp := none, inputs := rest }) ∧
  (∀ s : State, s.inputs = [] → step s = .next { s with rsp := none })

/-- R74: a step is refused exactly where a command is presented before the first reset, or two words are presented in the
same step, a step being a cycle that is ready and not reset; and after any number of cycles a refused one refuses the whole
run, whatever digests came before it. -/
def Obligations.RefusedExactlyAtInterface : Prop :=
  (∀ s : State, (∃ r, step s = .refused r) ↔
    ∃ (p : PortCycle) (rest : List HostEvent), s.inputs = .cycle p :: rest ∧ p.rst = false ∧ p.ready = true ∧
      ((s.condition = .preReset ∧ p.words ≠ []) ∨ 2 ≤ p.words.length)) ∧
  (∀ (s t : State) (r : Refusal) (k n : Nat), runFor k s = .next t → step t = .refused r →
    observe (k + n + 1) s = .refused r ∧ runFor (k + n + 1) s = .refused r)

/-- R84, R23: a loss of power is the pre-reset condition, of whose register nothing is said; that no response is on the port
then is the model's choice (log 6). While powered, the register is
held through any number of cycles without a step. -/
def Obligations.PowerLossIsPreReset : Prop :=
  (∀ (s : State) (rest : List HostEvent), s.inputs = .powerLoss :: rest →
    ∃ t : State, step s = .next t ∧ t.condition = .preReset ∧ t.rsp = none ∧ t.inputs = rest) ∧
  (∀ (n : Nat) (s : State) (ps : List PortCycle) (rest : List HostEvent), ps.length = n →
    (∀ p ∈ ps, p.rst = false ∧ (p.ready = false ∨ p.words = [])) →
    s.inputs = ps.map HostEvent.cycle ++ rest →
    ∃ t : State, runFor n s = .next t ∧ t.crc = s.crc ∧ t.condition = s.condition ∧ t.inputs = rest)

/-- R86: reset is the only way to leave the pre-reset condition; reset and INIT leave the same register; before a reset INIT
is not accepted, and a reset overrides a command in the same cycle. -/
def Obligations.OnlyResetLeavesPreReset : Prop :=
  (∀ s t : State, step s = .next t → s.condition = .preReset → t.condition = .operational →
    ∃ (p : PortCycle) (rest : List HostEvent), s.inputs = .cycle p :: rest ∧ p.rst = true) ∧
  (∀ (s t u : State) (p : PortCycle) (rest : List HostEvent), s.inputs = .cycle p :: rest → p.rst = true →
    step s = .next t → exec .init s = .next u → t.crc = u.crc) ∧
  (∀ (s : State) (rest : List HostEvent), s.condition = .preReset →
    s.inputs = .cycle (commandCycle (encode .init)) :: rest → ∀ t, step s ≠ .next t) ∧
  (∀ (s : State) (ready : Bool) (ws : List CmdWord) (rest : List HostEvent),
    s.inputs = .cycle ⟨true, ready, ws⟩ :: rest →
    step s = step { s with inputs := .cycle ⟨true, ready, []⟩ :: rest })

/-! ### Invariants, safety and runs -/

/-- R15, with R42 and R74 for the response port: every step keeps the invariant, from every state that meets it. That a
digest on the port is never one from before a loss of power is the model's choice (log 6): R42 and R74 do not say what the
port shows after one. -/
def Obligations.StepKeepsInvariant : Prop :=
  ∀ s t : State, stateInv s → step s = .next t → stateInv t

/-- R15, R23, R84: whatever the host presents from reset, the upper half of the register is zero in every state reached, but where
power was lost and no reset came since. -/
def Obligations.ReachableHighBitsZero : Prop :=
  ∀ (es : List HostEvent) (n : Nat) (t : State),
    runFor n { State.reset with inputs := es } = .next t → t.condition = .operational →
    t.crc.extractLsb' 16 16 = 0#16 ∧ t.crc ≤ 0xFFFF#32

/-- R74, R82, R93: where the host keeps its duties a step has a next state, in which it still keeps them, from every state. -/
def Obligations.DisciplinedStepStaysDisciplined : Prop :=
  ∀ s : State, disciplined s.condition s.inputs = true →
    ∃ t : State, step s = .next t ∧ disciplined t.condition t.inputs = true

/-- R74, R82, R93: where the host keeps its duties, every number of steps has a next state. -/
def Obligations.DisciplinedHostNeverRefused : Prop :=
  ∀ (n : Nat) (s : State), disciplined s.condition s.inputs = true → ∃ t : State, runFor n s = .next t

/-- R59, R85, R92, R95: over any cycles a disciplined host presents, with resets, idle cycles and holds anywhere, the
observation of the run is that of the accepted commands and resets alone, each by its effect on the register. -/
def Obligations.RunIsItsAcceptedCommands : Prop :=
  ∀ (s : State) (ps : List PortCycle), s.condition = .operational → s.inputs = ps.map HostEvent.cycle →
    disciplined .operational s.inputs = true →
    observe ps.length s = .next (runActions s.crc (ps.filterMap cycleAction))

/-- R7, R34, R92: two hosts on two bus bindings, each with a state and replies of its own and with whatever idle cycles and
holds, that have the same commands and resets accepted from the same register observe the same digests and leave the same
register. -/
def Obligations.LatencyAndBindingUnobservable : Prop :=
  ∀ (σ ε ρ σ' ε' ρ' : Type) (f : HostBinding σ ε ρ) (g : HostBinding σ' ε' ρ') (x : σ) (y : σ')
    (es : List (ε × Bool)) (es' : List (ε' × Bool)) (s t : State) (u : BusTrace σ ρ) (v : BusTrace σ' ρ'),
    s.condition = .operational → t.condition = .operational → s.crc = t.crc →
    busRun f x es s = .next u → busRun g y es' t = .next v →
    u.cycles.filterMap cycleAction = v.cycles.filterMap cycleAction →
    u.inst.crc = v.inst.crc ∧
    observe es.length { s with inputs := u.cycles.map HostEvent.cycle } =
      observe es'.length { t with inputs := v.cycles.map HostEvent.cycle }

/-- R7, R34, R39: a run through a host binding is the run of the port cycles it presents, one a bus event and one reply to
each, and leaves the host's list as it was. The form of a binding is the model's choice (log 16). -/
def Obligations.BusRunIsItsPortCycles : Prop :=
  ∀ (σ ε ρ : Type) (b : HostBinding σ ε ρ) (x : σ) (es : List (ε × Bool)) (s : State) (u : BusTrace σ ρ),
    busRun b x es s = .next u →
    u.cycles.length = es.length ∧ u.replies.length = es.length ∧ u.inst.inputs = s.inputs ∧
    u.cycles.map PortCycle.ready = es.map Prod.snd ∧
    runFor es.length { s with inputs := u.cycles.map HostEvent.cycle ++ s.inputs } = .next u.inst

/-- R7, R34, R42: what a binding gives the bus in one cycle. For an accepted FINAL the response port it sees has
`rsp_valid = 1` and `rsp_digest = crc`; for every other accepted command, a cycle with no step, and a reset it has
`rsp_valid = 0` and no digest; and `cmd_ready` is that of the cycle. The form of a binding is the model's choice (log 16). -/
def Obligations.BindingSeesResponsePort : Prop :=
  ∀ (σ ε ρ : Type) (b : HostBinding σ ε ρ) (x : σ) (e : ε) (s : State),
    (∀ w : CmdWord, s.condition = .operational → b.attach x e = ⟨false, [w]⟩ → decode w = .final →
      ∃ u : BusTrace σ ρ, busRun b x [(e, true)] s = .next u ∧
        (u.bound, u.replies) = ((b.reply x e ⟨true, true, some s.crc⟩).1, [(b.reply x e ⟨true, true, some s.crc⟩).2])) ∧
    (∀ w : CmdWord, s.condition = .operational → b.attach x e = ⟨false, [w]⟩ → decode w ≠ .final →
      ∃ u : BusTrace σ ρ, busRun b x [(e, true)] s = .next u ∧
        (u.bound, u.replies) = ((b.reply x e ⟨true, false, none⟩).1, [(b.reply x e ⟨true, false, none⟩).2])) ∧
    (∀ ready : Bool, (b.attach x e).rst = true ∨ ready = false ∨ (b.attach x e).words = [] →
      ∃ u : BusTrace σ ρ, busRun b x [(e, ready)] s = .next u ∧
        (u.bound, u.replies) = ((b.reply x e ⟨ready, false, none⟩).1, [(b.reply x e ⟨ready, false, none⟩).2]))

/-- R70: the source's five laws on the machine, from any two states of instances that were reset. The chunk law lets any
number of cycles without a step stand between the two chunks. -/
def Obligations.SourceLawsHold : Prop :=
  (∀ (s t : State) (msg : List Byte) (rest rest' : List HostEvent), s.condition = .operational →
    t.condition = .operational → s.inputs = commands (hashWords msg) ++ rest →
    t.inputs = commands (hashWords msg) ++ rest' →
    observe (msg.length + 2) s = .next ⟨[messageDigest msg], messageCrc msg⟩ ∧
    observe (msg.length + 2) s = observe (msg.length + 2) t) ∧
  (∀ (s : State) (rest : List HostEvent), s.condition = .operational →
    s.inputs = commands [encode .final, encode .final] ++ rest →
    observe 2 s = .next ⟨[be4 s.crc, be4 s.crc], s.crc⟩) ∧
  (∀ (s : State) (rest : List HostEvent), s.condition = .operational →
    s.inputs = commands [encode .init, encode .final] ++ rest →
    observe 2 s = .next ⟨[⟨0#8, 0#8, 0#8, 0#8⟩], 0#32⟩) ∧
  (∀ (s : State) (msg : List Byte) (k : Nat) (gap : List PortCycle) (rest : List HostEvent),
    s.condition = .operational → (∀ p ∈ gap, p.rst = false ∧ (p.ready = false ∨ p.words = [])) →
    s.inputs = commands (updateWords (msg.take k)) ++ (gap.map HostEvent.cycle ++
      (commands (updateWords (msg.drop k) ++ [encode .final]) ++ rest)) →
    observe (msg.length + gap.length + 1) s = .next ⟨[be4 (crcStream s.crc msg)], crcStream s.crc msg⟩ ∧
    observe (msg.length + gap.length + 1) s =
      observe (msg.length + 1) { s with inputs := commands (updateWords msg ++ [encode .final]) ++ rest }) ∧
  (∀ (s : State) (rest : List HostEvent), s.condition = .operational →
    runFor 2 { s with inputs := commands [encode .init, encode .init] ++ rest } =
      runFor 1 { s with inputs := commands [encode .init] ++ rest })

/-- R36, R81: a step of one instance is a step of its own state and leaves every other instance as it was. -/
def Obligations.InstancesDoNotInteract : Prop :=
  ∀ (k : Nat) (sys sys' : List State), stepInstance k sys = .next sys' →
    sys'.length = sys.length ∧ (∀ j, j ≠ k → sys'[j]? = sys[j]?) ∧
    (∀ s : State, sys[k]? = some s → ∃ t : State, sys'[k]? = some t ∧ step s = .next t)

/-- R36: no ordering between instances is observable: steps of two different instances give the same in either order. -/
def Obligations.InstanceStepsCommute : Prop :=
  ∀ (j k : Nat) (sys a b : List State), j ≠ k → stepInstance j sys = .next a → stepInstance k a = .next b →
    ∃ c : List State, stepInstance k sys = .next c ∧ stepInstance j c = .next b
end

