-- ==== Sys2Proof/Laws/State.lean ====
section
/-! SUPPORT. What every update leaves in every field, so that no later proof unfolds a record update. -/

namespace Sys2Proof.Machine

@[simp] theorem readCrc_eq (s : State) : readCrc s = s.crc := rfl

@[simp] theorem writeCrc_crc (v : Word) (s : State) : (writeCrc v s).crc = v := rfl
@[simp] theorem writeCrc_condition (v : Word) (s : State) : (writeCrc v s).condition = s.condition := rfl
@[simp] theorem writeCrc_rsp (v : Word) (s : State) : (writeCrc v s).rsp = s.rsp := rfl
@[simp] theorem writeCrc_inputs (v : Word) (s : State) : (writeCrc v s).inputs = s.inputs := rfl
@[simp] theorem writeCrc_powerLosses (v : Word) (s : State) : (writeCrc v s).powerLosses = s.powerLosses := rfl

@[simp] theorem respond_crc (d : Digest) (s : State) : (respond d s).crc = s.crc := rfl
@[simp] theorem respond_condition (d : Digest) (s : State) : (respond d s).condition = s.condition := rfl
@[simp] theorem respond_rsp (d : Digest) (s : State) : (respond d s).rsp = some d := rfl
@[simp] theorem respond_inputs (d : Digest) (s : State) : (respond d s).inputs = s.inputs := rfl
@[simp] theorem respond_powerLosses (d : Digest) (s : State) : (respond d s).powerLosses = s.powerLosses := rfl

@[simp] theorem noResponse_crc (s : State) : (noResponse s).crc = s.crc := rfl
@[simp] theorem noResponse_condition (s : State) : (noResponse s).condition = s.condition := rfl
@[simp] theorem noResponse_rsp (s : State) : (noResponse s).rsp = none := rfl
@[simp] theorem noResponse_inputs (s : State) : (noResponse s).inputs = s.inputs := rfl
@[simp] theorem noResponse_powerLosses (s : State) : (noResponse s).powerLosses = s.powerLosses := rfl

@[simp] theorem idleCycle_crc (s : State) : (idleCycle s).crc = s.crc := rfl
@[simp] theorem idleCycle_condition (s : State) : (idleCycle s).condition = s.condition := rfl
@[simp] theorem idleCycle_rsp (s : State) : (idleCycle s).rsp = none := rfl
@[simp] theorem idleCycle_inputs (s : State) : (idleCycle s).inputs = s.inputs := rfl
@[simp] theorem idleCycle_powerLosses (s : State) : (idleCycle s).powerLosses = s.powerLosses := rfl

@[simp] theorem setInputs_crc (es : List HostEvent) (s : State) : (setInputs es s).crc = s.crc := rfl
@[simp] theorem setInputs_condition (es : List HostEvent) (s : State) : (setInputs es s).condition = s.condition := rfl
@[simp] theorem setInputs_rsp (es : List HostEvent) (s : State) : (setInputs es s).rsp = s.rsp := rfl
@[simp] theorem setInputs_inputs (es : List HostEvent) (s : State) : (setInputs es s).inputs = es := rfl
@[simp] theorem setInputs_powerLosses (es : List HostEvent) (s : State) : (setInputs es s).powerLosses = s.powerLosses := rfl

@[simp] theorem applyReset_crc (s : State) : (applyReset s).crc = Config.initValue := rfl
@[simp] theorem applyReset_condition (s : State) : (applyReset s).condition = .operational := rfl
@[simp] theorem applyReset_rsp (s : State) : (applyReset s).rsp = none := rfl
@[simp] theorem applyReset_inputs (s : State) : (applyReset s).inputs = s.inputs := rfl
@[simp] theorem applyReset_powerLosses (s : State) : (applyReset s).powerLosses = s.powerLosses := rfl

@[simp] theorem losePower_crc (s : State) : (losePower s).crc = Config.unpoweredCrc s.powerLosses := rfl
@[simp] theorem losePower_condition (s : State) : (losePower s).condition = .preReset := rfl
@[simp] theorem losePower_rsp (s : State) : (losePower s).rsp = none := rfl
@[simp] theorem losePower_inputs (s : State) : (losePower s).inputs = s.inputs := rfl
@[simp] theorem losePower_powerLosses (s : State) : (losePower s).powerLosses = s.powerLosses + 1 := rfl

@[simp] theorem reset_crc : State.reset.crc = 0x00000000#32 := rfl
@[simp] theorem reset_condition : State.reset.condition = .operational := rfl
@[simp] theorem reset_rsp : State.reset.rsp = none := rfl
@[simp] theorem reset_inputs : State.reset.inputs = [] := rfl
@[simp] theorem reset_powerLosses : State.reset.powerLosses = 0 := rfl

@[simp] theorem withFetchWord_inputs (s : State) (nbits w : Nat) :
    (s.withFetchWord nbits w).inputs = .cycle (fetchCycle nbits w) :: s.inputs := rfl

@[simp] theorem withFetchWord_condition (s : State) (nbits w : Nat) :
    (s.withFetchWord nbits w).condition = s.condition := rfl

/-- Reading the inputs back and writing them is no change. -/
@[simp] theorem setInputs_self (s : State) : setInputs s.inputs s = s := rfl

@[simp] theorem setInputs_setInputs (es fs : List HostEvent) (s : State) :
    setInputs es (setInputs fs s) = setInputs es s := rfl

end Sys2Proof.Machine
end

