-- ==== Sys2Proof/Laws/Table.lean ====
section
/-! SUPPORT. The generator and the recurrence: linearity, range, and the forms later proofs use in place of the
definitions (40_table_gen.md R51 to R56; 41_accumulator.md R61). -/

namespace Sys2Proof.Machine

theorem genRound_of_low_bit {r : Word} (h : r.getLsbD 0 = true) : genRound r = (r >>> 1) ^^^ Config.polyRefl := by
  rw [genRound, h]
  rfl

theorem genRound_of_low_bit_clear {r : Word} (h : r.getLsbD 0 = false) : genRound r = r >>> 1 := by
  rw [genRound, h]
  rfl

/-- A round is a shift plus bit 0 times a constant (R56). -/
theorem genRound_xor (a b : Word) : genRound (a ^^^ b) = genRound a ^^^ genRound b := by
  have hx : (a ^^^ b).getLsbD 0 = (a.getLsbD 0 ^^ b.getLsbD 0) := BitVec.getLsbD_xor
  have hs : (a ^^^ b) >>> 1 = (a >>> 1) ^^^ (b >>> 1) := BitVec.ushiftRight_xor_distrib a b 1
  cases ha : a.getLsbD 0 <;> cases hb : b.getLsbD 0 <;> simp only [genRound, hx, ha, hb, hs]
  · simp
  · simp [BitVec.xor_assoc]
  · simp only [Bool.true_xor, Bool.not_false, if_true, Bool.false_eq_true, if_false]
    ac_rfl
  · simp only [Bool.true_xor, Bool.not_true, Bool.false_eq_true, if_false, if_true]
    calc a >>> 1 ^^^ b >>> 1
        = a >>> 1 ^^^ b >>> 1 ^^^ (Config.polyRefl ^^^ Config.polyRefl) := by simp
      _ = a >>> 1 ^^^ Config.polyRefl ^^^ (b >>> 1 ^^^ Config.polyRefl) := by ac_rfl

theorem genRounds_xor (n : Nat) (a b : Word) : genRounds n (a ^^^ b) = genRounds n a ^^^ genRounds n b := by
  induction n generalizing a b with
  | zero => rfl
  | succ n ih => simp only [genRounds, genRound_xor, ih]

theorem highHalf_xor (a b : Word) : highHalf (a ^^^ b) = highHalf a ^^^ highHalf b := by
  ext i
  simp [highHalf]

/-- A shift right of a value whose upper half is zero keeps it zero (R68). -/
theorem highHalf_ushiftRight {v : Word} (h : highHalf v = 0#16) (n : Nat) : highHalf (v >>> n) = 0#16 := by
  have hv : v.toNat / 65536 = 0 := by
    have := congrArg BitVec.toNat h
    simp only [highHalf, BitVec.extractLsb'_toNat, BitVec.toNat_ofNat, Nat.shiftRight_eq_div_pow] at this
    have := v.isLt
    omega
  apply BitVec.eq_of_toNat_eq
  have hle : v.toNat / 2 ^ n ≤ v.toNat := Nat.div_le_self _ _
  have hz : v.toNat / 2 ^ n / 65536 = 0 := by
    generalize v.toNat / 2 ^ n = q at hle
    omega
  simp [highHalf, BitVec.extractLsb'_toNat, Nat.shiftRight_eq_div_pow, hz]

theorem genRound_highHalf {r : Word} (h : highHalf r = 0#16) : highHalf (genRound r) = 0#16 := by
  have hs := highHalf_ushiftRight h 1
  have hp : highHalf Config.polyRefl = 0#16 := by decide
  cases hb : r.getLsbD 0
  · rw [genRound_of_low_bit_clear hb, hs]
  · rw [genRound_of_low_bit hb, highHalf_xor, hs, hp]
    rfl

theorem genRounds_highHalf (n : Nat) {r : Word} (h : highHalf r = 0#16) : highHalf (genRounds n r) = 0#16 := by
  induction n generalizing r with
  | zero => exact h
  | succ n ih => exact ih (genRound_highHalf h)

theorem highHalf_zext32 (b : Byte) : highHalf (zext32 b) = 0#16 := by
  apply BitVec.eq_of_toNat_eq
  have := b.isLt
  simp only [highHalf, zext32, BitVec.extractLsb'_toNat, BitVec.toNat_setWidth, Nat.shiftRight_eq_div_pow, BitVec.toNat_ofNat]
  omega

theorem tableEntry_highHalf (i : Byte) : highHalf (tableEntry i) = 0#16 :=
  genRounds_highHalf _ (highHalf_zext32 i)

theorem zext32_xor (a b : Byte) : zext32 (a ^^^ b) = zext32 a ^^^ zext32 b := BitVec.setWidth_xor

theorem byte0Of_xor (a b : Word) : byte0Of (a ^^^ b) = byte0Of a ^^^ byte0Of b := by
  ext i
  simp [byte0Of]

theorem byte0Of_zext32 (b : Byte) : byte0Of (zext32 b) = b := by
  ext i hi
  simp [byte0Of, zext32, hi, show i < 32 by omega]

/-- R61: the index is `crc[7:0] ^ c`. -/
theorem crcIndex_eq (crc : Word) (c : Byte) : crcIndex crc c = byte0Of crc ^^^ c := by
  have hm : ∀ v : Word, byte0Of (v &&& 0x000000FF#32) = byte0Of v := by
    intro v
    ext i hi
    have hk : (0x000000FF#32).getLsbD i = true := by
      have : ∀ k : Fin 8, (0x000000FF#32).getLsbD k = true := by decide
      exact this ⟨i, hi⟩
    simp only [byte0Of, BitVec.getElem_extractLsb', Nat.zero_add, BitVec.getLsbD_and, hk, Bool.and_true]
  rw [crcIndex, hm, byte0Of_xor, byte0Of_zext32]

theorem crcStep_eq (crc : Word) (c : Byte) : crcStep crc c = tableEntry (byte0Of crc ^^^ c) ^^^ (crc >>> 8) := by
  rw [crcStep, crcIndex_eq]
  rfl

/-- R15: UPDATE preserves the zero upper half. -/
theorem crcStep_highHalf {crc : Word} (h : highHalf crc = 0#16) (c : Byte) : highHalf (crcStep crc c) = 0#16 := by
  rw [crcStep_eq, highHalf_xor, tableEntry_highHalf, highHalf_ushiftRight h]
  rfl

theorem fillTick_of_lt {ram : List Word} (h : ram.length < 256) :
    fillTick ram = ram ++ [tableEntry (BitVec.ofNat 8 ram.length)] := if_pos h

theorem fillTick_of_full {ram : List Word} (h : ¬ ram.length < 256) : fillTick ram = ram := if_neg h

/-- The fill writes one entry a tick and stops at 256. -/
theorem ramAfter_length (n : Nat) : (ramAfter n).length = min n 256 := by
  induction n with
  | zero => rfl
  | succ n ih =>
    rw [ramAfter]
    by_cases hl : (ramAfter n).length < 256
    · rw [fillTick_of_lt hl, List.length_append, List.length_singleton]
      omega
    · rw [fillTick_of_full hl]
      omega

/-- Every entry the fill has written is the table's. -/
theorem ramAfter_getElem? (n k : Nat) (h : k < (ramAfter n).length) :
    (ramAfter n)[k]? = some (tableEntry (BitVec.ofNat 8 k)) := by
  induction n with
  | zero => exact absurd h (Nat.not_lt_zero k)
  | succ n ih =>
    rw [ramAfter] at h ⊢
    by_cases hl : (ramAfter n).length < 256
    · rw [fillTick_of_lt hl] at h ⊢
      rcases Nat.lt_or_ge k (ramAfter n).length with hk | hk
      · rw [List.getElem?_append_left hk, ih hk]
      · rw [List.length_append, List.length_singleton] at h
        obtain rfl : k = (ramAfter n).length := by omega
        rw [List.getElem?_append_right (Nat.le_refl _)]
        simp
    · rw [fillTick_of_full hl] at h ⊢
      exact ih h

/-- The word on `rsp_digest` is the value encoded (R31). -/
theorem digestWord_be4 (v : Word) : digestWord (be4 v) = v := by
  apply BitVec.eq_of_getLsbD_eq
  intro i hi
  simp only [digestWord, be4, byte0Of, byte1Of, byte2Of, byte3Of, BitVec.getLsbD_append, BitVec.getLsbD_extractLsb']
  rcases Nat.lt_or_ge i 8 with h0 | h0
  · simp [h0]
  rcases Nat.lt_or_ge i 16 with h1 | h1
  · simp [show ¬ i < 8 by omega, show i - 8 < 8 by omega, show 8 + (i - 8) = i by omega]
  rcases Nat.lt_or_ge i 24 with h2 | h2
  · simp [show ¬ i < 8 by omega, show ¬ i - 8 < 8 by omega, show i - 8 - 8 < 8 by omega, show 16 + (i - 8 - 8) = i by omega]
  · simp [show ¬ i < 8 by omega, show ¬ i - 8 < 8 by omega, show ¬ i - 8 - 8 < 8 by omega,
      show i - 8 - 8 - 8 < 8 by omega, show 24 + (i - 8 - 8 - 8) = i by omega]

end Sys2Proof.Machine
end

