-- ==== Sys2Proof/Laws/Step.lean ====
section
/-! SUPPORT. What a command, a cycle and a step can do, said once each. -/

namespace Sys2Proof.Machine

@[simp] theorem exec_nop (s : State) : exec .nop s = .next (noResponse s) := rfl

@[simp] theorem exec_init (s : State) : exec .init s = .next (noResponse (writeCrc Config.initValue s)) := rfl

@[simp] theorem exec_update (c : Byte) (s : State) :
    exec (.update c) s = .next (noResponse (writeCrc (crcStep s.crc c) s)) := rfl

@[simp] theorem exec_final (s : State) : exec .final s = .next (respond (be4 s.crc) s) := rfl

/-- Everything a command can do to a state. -/
theorem exec_cases {i : Instr} {s t : State} (h : exec i s = .next t) :
    (i = .nop ∧ t = noResponse s) ∨ (i = .init ∧ t = noResponse (writeCrc Config.initValue s)) ∨
    (∃ c, i = .update c ∧ t = noResponse (writeCrc (crcStep s.crc c) s)) ∨
    (i = .final ∧ t = respond (be4 s.crc) s) := by
  cases i with
  | nop => exact .inl ⟨rfl, by simpa using h.symm⟩
  | init => exact .inr (.inl ⟨rfl, by simpa using h.symm⟩)
  | update c => exact .inr (.inr (.inl ⟨c, rfl, by simpa using h.symm⟩))
  | final => exact .inr (.inr (.inr ⟨rfl, by simpa using h.symm⟩))

/-- Everything a cycle of the ports can do when it does not refuse. -/
theorem portCycle_cases {p : PortCycle} {s t : State} (h : portCycle p s = .next t) :
    (p.rst = true ∧ t = applyReset s) ∨
    (p.rst = false ∧ (p.ready = false ∨ p.words = []) ∧ t = idleCycle s) ∨
    (p.rst = false ∧ p.ready = true ∧ s.condition = .operational ∧
      ∃ w, p.words = [w] ∧ exec (decode w) s = .next t) := by
  obtain ⟨rst, ready, words⟩ := p
  cases rst with
  | true => exact .inl ⟨rfl, by simpa [portCycle] using h.symm⟩
  | false =>
    cases ready with
    | false => exact .inr (.inl ⟨rfl, .inl rfl, by simpa [portCycle] using h.symm⟩)
    | true =>
      match words, hc : s.condition with
      | [], _ => exact .inr (.inl ⟨rfl, .inr rfl, by simpa [portCycle, acceptWords] using h.symm⟩)
      | _ :: _, .preReset => simp [portCycle, acceptWords, hc] at h
      | [w], .operational => exact .inr (.inr ⟨rfl, rfl, rfl, w, rfl, by simpa [portCycle, acceptWords, hc] using h⟩)
      | _ :: _ :: _, .operational => simp [portCycle, acceptWords, hc] at h

/-- A command does not look at the host's list and keeps it. -/
theorem exec_setInputs {i : Instr} {s t : State} (h : exec i s = .next t) (es : List HostEvent) :
    exec i (setInputs es s) = .next (setInputs es t) ∧ t.inputs = s.inputs := by
  obtain ⟨rfl, rfl⟩ | ⟨rfl, rfl⟩ | ⟨c, rfl, rfl⟩ | ⟨rfl, rfl⟩ := exec_cases h <;> exact ⟨rfl, rfl⟩

/-- A port cycle does not look at the host's list and keeps it. -/
theorem portCycle_setInputs {p : PortCycle} {s t : State} (h : portCycle p s = .next t) (es : List HostEvent) :
    portCycle p (setInputs es s) = .next (setInputs es t) ∧ t.inputs = s.inputs := by
  obtain ⟨rst, ready, words⟩ := p
  rcases portCycle_cases h with ⟨hr, rfl⟩ | ⟨hr, hn, rfl⟩ | ⟨hr, hd, hc, w, hw, he⟩
  · obtain rfl : rst = true := hr
    exact ⟨rfl, rfl⟩
  · obtain rfl : rst = false := hr
    obtain rfl | rfl : ready = false ∨ words = [] := hn
    · exact ⟨rfl, rfl⟩
    · cases ready <;> exact ⟨rfl, rfl⟩
  · obtain rfl : rst = false := hr
    obtain rfl : ready = true := hd
    obtain rfl : words = [w] := hw
    simp only [portCycle, acceptWords, setInputs_condition, hc]
    exact exec_setInputs he es

theorem step_of_no_input {s : State} (h : s.inputs = []) : step s = .next (idleCycle s) := by
  simp [step, nextCycle, h]

theorem step_of_input {s : State} {e : HostEvent} {rest : List HostEvent} (h : s.inputs = e :: rest) :
    step s = takeEvent e (setInputs rest s) := by
  simp [step, nextCycle, h]

/-- Everything a step can do when it does not refuse. -/
theorem step_cases {s t : State} (h : step s = .next t) :
    (s.inputs = [] ∧ t = idleCycle s) ∨
    (∃ rest, s.inputs = .powerLoss :: rest ∧ t = losePower (setInputs rest s)) ∨
    (∃ p rest, s.inputs = .cycle p :: rest ∧ portCycle p (setInputs rest s) = .next t) := by
  match hi : s.inputs with
  | [] => exact .inl ⟨rfl, by simpa [step_of_no_input hi] using h.symm⟩
  | .powerLoss :: rest => exact .inr (.inl ⟨rest, rfl, by simpa [step_of_input hi, takeEvent] using h.symm⟩)
  | .cycle p :: rest => exact .inr (.inr ⟨p, rest, rfl, by simpa [step_of_input hi, takeEvent] using h⟩)

theorem runFor_succ {s t : State} (h : step s = .next t) (n : Nat) : runFor (n + 1) s = runFor n t := by
  simp only [runFor, h]

/-- The host's run of the core is the model's. -/
theorem core_run_eq_runFor (n : Nat) (s : State) : Host.Core.run core n s = runFor n s := by
  induction n generalizing s with
  | zero => rfl
  | succ n ih =>
    cases h : step s with
    | next t => simp only [Host.Core.run, runFor, core, h]; exact ih t
    | fault r => simp only [Host.Core.run, runFor, core, h]
    | refused r => simp only [Host.Core.run, runFor, core, h]

/-- There is no fault, so whatever would follow from one does (60_exceptions.md R71). -/
theorem fault_elim {P : Prop} (r : Fault) : P := nomatch r

end Sys2Proof.Machine
end

