-- ==== Sys2Proof/Laws/Bus.lean ====
section
/-! SUPPORT. What a run through a host binding can do, said once. -/

namespace Sys2Proof.Machine

@[simp] theorem busCycle_ready {σ ε ρ : Type} (b : HostBinding σ ε ρ) (st : σ) (e : ε) (ready : Bool) :
    (busCycle b st e ready).ready = ready := rfl

@[simp] theorem busCycle_rst {σ ε ρ : Type} (b : HostBinding σ ε ρ) (st : σ) (e : ε) (ready : Bool) :
    (busCycle b st e ready).rst = (b.attach st e).rst := rfl

@[simp] theorem busCycle_words {σ ε ρ : Type} (b : HostBinding σ ε ρ) (st : σ) (e : ε) (ready : Bool) :
    (busCycle b st e ready).words = (b.attach st e).words := rfl

theorem outputPorts_of_no_response {t : State} (ready : Bool) (h : t.rsp = none) :
    outputPorts ready t = ⟨ready, false, none⟩ := by
  simp [outputPorts, rspValid, rspDigest, h]

/-- The bus sees the register's value where the digest on the port is its `BE4` (20_memory.md R31). -/
theorem outputPorts_of_be4 {t : State} {v : Word} (ready : Bool) (h : t.rsp = some (be4 v)) :
    outputPorts ready t = ⟨ready, true, some v⟩ := by
  simp [outputPorts, rspValid, rspDigest, h, digestWord_be4]

/-- Everything a run through a binding can do when it does not refuse: a first cycle, then the rest from the state it
leaves and the binding's state its reply leaves. -/
theorem busRun_cons_cases {σ ε ρ : Type} {b : HostBinding σ ε ρ} {st : σ} {e : ε} {ready : Bool}
    {rest : List (ε × Bool)} {s : State} {u : BusTrace σ ρ} (h : busRun b st ((e, ready) :: rest) s = .next u) :
    ∃ (t : State) (v : BusTrace σ ρ), portCycle (busCycle b st e ready) s = .next t ∧
      busRun b (b.reply st e (outputPorts ready t)).1 rest t = .next v ∧
      u = ⟨v.bound, (b.reply st e (outputPorts ready t)).2 :: v.replies, busCycle b st e ready :: v.cycles, v.inst⟩ := by
  have hs : step (setInputs (.cycle (busCycle b st e ready) :: s.inputs) s) = portCycle (busCycle b st e ready) s := by
    rw [step_of_input (setInputs_inputs _ s), setInputs_setInputs, setInputs_self]
    rfl
  rw [busRun, hs] at h
  cases ht : portCycle (busCycle b st e ready) s with
  | fault r => exact fault_elim r
  | refused r => simp [ht] at h
  | next t =>
    simp only [ht] at h
    cases hv : busRun b (b.reply st e (outputPorts ready t)).1 rest t with
    | fault r => exact fault_elim r
    | refused r => simp [hv] at h
    | next v => exact ⟨t, v, rfl, hv, by simpa [hv] using h.symm⟩

end Sys2Proof.Machine
end

