-- ==== Sys2Proof/Laws/PerInstr.lean ====
section
/-! SUPPORT. Per-instruction family `EncodedRow`: the encoder's word of a command lies in the command's row of
spec/opcode_table.json and carries its `op` (30_encoding.md R40). -/

namespace Sys2Proof.Laws.EncodedRow

def Statement (i : Instr) : Prop := i.row.covers (encode i) = true ∧ opOf (encode i) = i.op

theorem nop : Statement .nop := by
  unfold Statement
  decide

theorem init : Statement .init := by
  unfold Statement
  decide

theorem update (c : Byte) : Statement (.update c) := by
  have h : ∀ c : Byte, (Instr.update c).row.covers (encode (.update c)) = true ∧
      opOf (encode (.update c)) = (Instr.update c).op := by decide
  exact h c

theorem final : Statement .final := by
  unfold Statement
  decide

end Sys2Proof.Laws.EncodedRow
end

