-- ==== Sys2Proof/Tests/Slice0.lean ====
section
/-! SUPPORT. Tests on small states, with expected values from spec/ (mostly 95_test_vectors.md), and a witness for the
hypotheses of each statement that has some. -/

namespace Sys2Proof.Tests

open Sys2Proof.Machine

/-- An instance that was reset, with this register and these inputs. -/
def stateAt (crc : Word) (inputs : List HostEvent) : State := { State.reset with crc := crc, inputs := inputs }

/-- An instance that was not reset, with these inputs. -/
def unresetAt (inputs : List HostEvent) : State := { State.reset with condition := .preReset, inputs := inputs }

/-- The register and the response after one step, `none` where it has no next state. -/
def seen (o : Host.Outcome State Fault Refusal) : Option (Word × Option Digest) :=
  match o with
  | .next t => some (t.crc, t.rsp)
  | .fault _ => none
  | .refused _ => none

/-- The refusal of a step, `none` where it has a next state. -/
def refusalOf (o : Host.Outcome State Fault Refusal) : Option Refusal :=
  match o with
  | .next _ => none
  | .fault _ => none
  | .refused r => some r

/-- One accepted word on this register. -/
def onWord (crc : Word) (w : CmdWord) : Option (Word × Option Digest) := seen (step (stateAt crc (commands [w])))

/-! ### Well-formedness (30_encoding.md R46, R48; 60_exceptions.md R72) -/

theorem test_wf_value_over_255 : (Stmt.update 256).wellFormed = false := by decide

theorem test_wf_value_over_255_in_list : (Stmt.updateb [0, 255, 300]).wellFormed = false := by decide

theorem test_wf_bare_quote : (Stmt.updates [.char '"']).wellFormed = false := by decide

theorem test_wf_bare_backslash : (Stmt.hash [.char 'a', .char '\\']).wellFormed = false := by decide

theorem test_wf_control_character : (Stmt.updates [.char '\n']).wellFormed = false := by decide

theorem test_wf_delete_character : (Stmt.hash [.char (Char.ofNat 0x7F)]).wellFormed = false := by decide

theorem test_wf_limits : (Stmt.updateb [0, 255]).wellFormed && (Stmt.hash [.char ' ', .char '~', .quote]).wellFormed := by
  decide

/-- A command has no ill-formed term (R72): its operand is eight bits wide. -/
theorem test_wf_every_command : Instr.nop.wellFormed && Instr.init.wellFormed && (Instr.update 0xFF#8).wellFormed &&
    Instr.final.wellFormed := by decide

/-! ### Decoding, words written bit by bit (R40, R50; 95_test_vectors.md V2.7) -/

theorem test_decode_nop : decode 0b0011111111#10 = .nop := by decide

theorem test_decode_init : decode 0b0111000011#10 = .init := by decide

theorem test_decode_update : decode 0b1000110001#10 = .update 0x31#8 := by decide

theorem test_decode_final : decode 0b1110100101#10 = .final := by decide

theorem test_decode_number : decodeTableWord 16 0x231 = some (.update 0x31#8) := by decide

/-- Ten wires carry no bit above bit 9 (R39, R44; log 8). -/
theorem test_decode_number_too_wide : decodeTableWord 16 0x400 = none := by decide

theorem test_encode_update : encode (.update 0xFF#8) = 0b1011111111#10 := by decide

/-! ### The generator (V2.1, V2.2; 40_table_gen.md R57, R58) -/

theorem test_round_largest : genRound 0xFFFF#32 = 0xDFFE#32 := by decide

theorem test_round_odd : genRound 0x0003#32 = 0xA000#32 := by decide

theorem test_trace_0xFF : ((List.range 9).map fun n => genRounds n 0xFF#32) =
    [0xFF#32, 0xA07E#32, 0x503F#32, 0x881E#32, 0x440F#32, 0x8206#32, 0x4103#32, 0x8080#32, 0x4040#32] := by decide

theorem test_table_entry_1 : tableEntry 0x01#8 = 0xC0C1#32 := by decide

theorem test_table_entry_aa : tableEntry 0xAA#8 = 0x7F80#32 := by decide

theorem test_rom_entry : rom[0x54]? = some 0xFF01#32 := by decide

/-! ### The recurrence at 32 bits (V2.3, the unreachable states) and streams (V1.1, V2.8) -/

theorem test_crcStep_full_width : crcStep 0x12345678#32 0x00#8 = 0x00121656#32 := by decide

theorem test_crcStep_general : crcStep 0x1234#32 0x56#8 = 0xE993#32 := by decide

theorem test_stream_known_value : messageCrc
    [0x31#8, 0x32#8, 0x33#8, 0x34#8, 0x35#8, 0x36#8, 0x37#8, 0x38#8, 0x39#8] = 0xBB3D#32 := by decide +kernel

theorem test_stream_abc : messageDigest [0x61#8, 0x62#8, 0x63#8] = ⟨0x00#8, 0x00#8, 0x97#8, 0x38#8⟩ := by decide +kernel

/-! ### The commands, one step each (V2.3 to V2.6) -/

theorem test_nop_ignored_bits : onWord 0xD4C1#32 0x05A#10 = some (0xD4C1#32, none) := by decide

theorem test_init_ignored_bits : onWord 0xBB3D#32 0x1FF#10 = some (0x0000#32, none) := by decide

theorem test_update_second_ff : onWord 0x4040#32 0x2FF#10 = some (0xB001#32, none) := by decide

theorem test_update_top_bit : onWord 0x8000#32 0x200#10 = some (0x0080#32, none) := by decide

theorem test_final_noncanonical :
    onWord 0xBB3D#32 0x3A5#10 = some (0xBB3D#32, some ⟨0x00#8, 0x00#8, 0xBB#8, 0x3D#8⟩) := by decide

theorem test_final_all_four_bytes :
    onWord 0x00123456#32 0x300#10 = some (0x00123456#32, some ⟨0x00#8, 0x12#8, 0x34#8, 0x56#8⟩) := by decide

/-- The word is the first thing that runs after reset. -/
theorem test_first_instruction_after_reset :
    seen (step (State.reset.withFetchWord 16 0x231)) = some (0xD4C1#32, none) := by decide

/-! ### Reset, holds and refusals (V2.9; P4; 60_exceptions.md R74) -/

theorem test_reset_wins : seen (step (stateAt 0xBB3D#32 [.cycle ⟨true, true, [0x300#10]⟩])) = some (0x0000#32, none) := by
  decide

theorem test_not_ready : seen (step (stateAt 0xBB3D#32 [.cycle ⟨false, false, [0x100#10]⟩])) = some (0xBB3D#32, none) := by
  decide

theorem test_before_first_reset : refusalOf (step (unresetAt (commands [0x100#10]))) = some .beforeFirstReset := by decide

theorem test_two_drivers :
    refusalOf (step (stateAt 0#32 [.cycle ⟨false, true, [0x300#10, 0x300#10]⟩])) = some .unserialisedDrivers := by decide

theorem test_power_loss_then_command :
    refusalOf (runFor 2 (stateAt 0xBB3D#32 (.powerLoss :: commands [0x300#10]))) = some .beforeFirstReset := by decide

/-! ### The assembler (R46 to R49) -/

theorem test_asm_case_and_comment :
    assembleLine [' ', 'u', 'p', 'D', 'a', 't', 'e', ' ', '0', 'x', 'f', 'F', ' ', ';', 'x'] = .ok [.update 0xFF#8] := by
  rfl

theorem test_asm_character : assembleLine ['U', 'P', 'D', 'A', 'T', 'E', ' ', '\'', '1', '\''] = .ok [.update 0x31#8] := by
  rfl

theorem test_asm_out_of_range :
    assembleLine ['U', 'P', 'D', 'A', 'T', 'E', ' ', '2', '5', '6'] = .error .valueOutOfRange := by rfl

theorem test_asm_updateb : assembleLine ['U', 'P', 'D', 'A', 'T', 'E', 'B', ' ', '0', ',', ' ', '2', '5', '5'] =
    .ok [.update 0x00#8, .update 0xFF#8] := by rfl

theorem test_asm_updateb_empty : assembleLine ['U', 'P', 'D', 'A', 'T', 'E', 'B'] = .ok [] := by rfl

theorem test_asm_hash : assembleLine ['H', 'A', 'S', 'H', ' ', '"', ';', '\\', '"', '\\', 'x', '0', 'A', '"'] =
    .ok [.init, .update 0x3B#8, .update 0x22#8, .update 0x0A#8, .final] := by rfl

theorem test_asm_two_lines :
    (assemble ['I', 'N', 'I', 'T', '\n', 'F', 'I', 'N', 'A', 'L', '\n']).toOption = some [0x100#10, 0x300#10] := by rfl

theorem test_disassemble : disassemble 0x2AF#10 = ['U', 'P', 'D', 'A', 'T', 'E', ' ', '0', 'x', 'A', 'F'] := by decide

/-! ### Witnesses: a concrete case of the hypotheses of each statement that has some -/

theorem witness_GenRoundShiftsAndXors : (1#32).getLsbD 0 = true ∧ (0x80#32).getLsbD 0 = false := by decide

theorem witness_TableIsLinearAndInjective : tableEntry 0x54#8 = tableEntry 0x54#8 := rfl

theorem witness_TableRealisationsAgree : tableReady .rom 0 = true ∧ tableReady .combinational 0 = true ∧
    tableReady .generatedRam 256 = true ∧ tableReady .generatedRam 255 = false := by
  refine ⟨rfl, rfl, ?_, ?_⟩ <;> simp only [tableReady, ramAfter_length] <;> rfl

theorem witness_AcceptedCyclesReadFilledEntries :
    readyOnlyWhenFilled .generatedRam 255 [⟨false, false, []⟩, commandCycle 0x231#10] = true ∧
      ([⟨false, false, []⟩, commandCycle 0x231#10] : List PortCycle)[1]? = some (commandCycle 0x231#10) ∧
      (commandCycle 0x231#10).ready = true := by
  refine ⟨?_, rfl, rfl⟩
  simp only [readyOnlyWhenFilled, tableReady, ramAfter_length]
  rfl

theorem witness_upper_half_zero : (0xFFFF#32).extractLsb' 16 16 = 0#16 ∧ (0#32).extractLsb' 16 16 = 0#16 := by decide

theorem witness_UpdateCommandsComputeStream : (stateAt 0xBB3D#32 (commands (updateWords [0x31#8]))).condition = .operational ∧
    (stateAt 0xBB3D#32 (commands (updateWords [0x31#8]))).inputs = commands (updateWords [0x31#8]) ++ [] := by decide

theorem witness_DigestIsBigEndian : be4 0xBB3D#32 = be4 0xBB3D#32 ∧ (0xBB3D#32).extractLsb' 16 16 = 0#16 := by decide

theorem witness_NopChangesNothing : ∃ t u : State,
    exec (.update 0x31#8) (stateAt 0#32 []) = .next t ∧ exec .nop t = .next u := ⟨_, _, rfl, rfl⟩

theorem witness_InitClearsCrc : ∃ t : State, exec .init (stateAt 0xBB3D#32 []) = .next t := ⟨_, rfl⟩

theorem witness_UpdateFoldsOneByte : (stateAt 0#32 []).crc = 0x0000#32 ∧ (stateAt 0xFF#32 []).crc = 0x00FF#32 ∧
    (stateAt 0xFFFF#32 []).crc = 0xFFFF#32 ∧ (stateAt 0xFFFF#32 []).crc.extractLsb' 16 16 = 0#16 ∧
    ∃ t : State, exec (.update 0xFF#8) (stateAt 0xFFFF#32 []) = .next t :=
  ⟨rfl, rfl, rfl, rfl, _, rfl⟩

theorem witness_FinalReturnsDigest : (stateAt 0xBB3D#32 []).crc = 0xBB3D#32 ∧
    (stateAt 0xBB3D#32 []).crc.extractLsb' 16 16 = 0#16 ∧ (∃ t : State, exec .final (stateAt 0xBB3D#32 []) = .next t) ∧
    ∃ t : State, exec .init (stateAt 0xBB3D#32 []) = .next t :=
  ⟨rfl, rfl, ⟨_, rfl⟩, _, rfl⟩

theorem witness_CommandsFrame : (∃ t : State, exec .nop (stateAt 0xBB3D#32 []) = .next t) ∧
    (∃ t : State, exec (.update 0x01#8) (stateAt 0xBB3D#32 []) = .next t) ∧
    ∃ t : State, exec .final (stateAt 0xBB3D#32 []) = .next t := ⟨⟨_, rfl⟩, ⟨_, rfl⟩, _, rfl⟩

theorem witness_CrcAccessByCommand : ∃ t u : State, exec .final (stateAt 0xBB3D#32 []) = .next t ∧
    exec .final { stateAt 0xBB3D#32 [] with crc := 0xBB3D#32 } = .next u ∧ t.rsp = u.rsp := ⟨_, _, rfl, rfl, rfl⟩

theorem witness_IdempotentCommands : (∀ c : Byte, Instr.final ≠ .update c) ∧
    (∃ t : State, exec .final (stateAt 0xBB3D#32 []) = .next t) ∧ (stateAt 0#32 []).crc = 0#32 :=
  ⟨fun _ h => by simp at h, ⟨_, rfl⟩, rfl⟩

theorem witness_DecodeEncodeAgree : (Instr.update 0xFF#8).wellFormed = true ∧ opOf 0x2FF#10 = 0b10#2 := by decide

theorem witness_EveryWordIsOneCommand : opOf 0x300#10 = opOf 0x3A5#10 ∧ opOf 0x300#10 ≠ 0b10#2 := by decide

theorem witness_UpdatesExpandsCodes :
    [TextItem.char 'a', .quote].map TextItem.code = [0x61#8, 0x22#8].map Except.ok ∧
      0x20 ≤ ' '.toNat ∧ '~'.toNat ≤ 0x7E ∧ ' ' ≠ '"' ∧ '~' ≠ '\\' ∧ (Char.ofNat 0x1F).toNat < 0x20 ∧ 0x7E < (Char.ofNat 0x7F).toNat :=
  ⟨rfl, by decide, by decide, by decide, by decide, by decide, by decide⟩

theorem witness_HashExpandsToWholeComputation : (Stmt.updates [.char '1']).expand = .ok [.update 0x31#8] := rfl

theorem witness_IllFormedStatementsRefused : 255 < 256 ∧ (Stmt.update 255).expand = .ok [.update 0xFF#8] :=
  ⟨by decide, rfl⟩

theorem witness_ResetAndInitValues : ∃ t : State, exec .init (stateAt 0xBB3D#32 []) = .next t := ⟨_, rfl⟩

theorem witness_ResetSignalClears : ∃ t : State,
    (stateAt 0xBB3D#32 [.cycle ⟨true, false, [0x300#10]⟩, .cycle ⟨true, true, []⟩]).inputs =
      .cycle ⟨true, false, [0x300#10]⟩ :: .cycle ⟨true, true, []⟩ :: [] ∧
    step (stateAt 0xBB3D#32 [.cycle ⟨true, false, [0x300#10]⟩, .cycle ⟨true, true, []⟩]) = .next t := ⟨_, rfl, rfl⟩

theorem witness_ResetSignalClears_then_command : ∃ t : State,
    (unresetAt [.cycle ⟨true, true, []⟩, .cycle (commandCycle 0x231#10)]).inputs =
      .cycle ⟨true, true, []⟩ :: .cycle (commandCycle 0x231#10) :: [] ∧
    step (unresetAt [.cycle ⟨true, true, []⟩, .cycle (commandCycle 0x231#10)]) = .next t := ⟨_, rfl, rfl⟩

theorem witness_StepRunsDecodedCommand : (stateAt 0#32 (commands [0x231#10])).condition = .operational ∧
    (stateAt 0#32 (commands [0x231#10])).inputs = .cycle (commandCycle 0x231#10) :: [] ∧
    decodeTableWord 16 0x3FF = some .final := by decide

theorem witness_StepEffectOfEachCommand :
    (∀ w : CmdWord, (stateAt 0#32 (commands [w])).condition = .operational ∧
      (stateAt 0#32 (commands [w])).inputs = .cycle (commandCycle w) :: []) ∧ decode 0x000#10 = .nop ∧
    decode 0x100#10 = .init ∧ decode 0x231#10 = .update 0x31#8 ∧ decode 0x300#10 = .final :=
  ⟨fun _ => ⟨rfl, rfl⟩, rfl, rfl, rfl, rfl⟩

theorem witness_CyclesWithoutStepChangeNothing :
    (stateAt 0#32 [.cycle ⟨false, false, [0x300#10]⟩]).inputs = .cycle ⟨false, false, [0x300#10]⟩ :: [] ∧
      (stateAt 0#32 []).inputs = [] := by decide

theorem witness_RefusedExactlyAtInterface : step (unresetAt (commands [0x000#10])) = .refused .beforeFirstReset ∧
    step (stateAt 0#32 [.cycle ⟨false, true, [0x000#10, 0x000#10]⟩]) = .refused .unserialisedDrivers := ⟨rfl, rfl⟩

/-- A digest is returned, then two drivers collide. -/
theorem witness_RefusedExactlyAtInterface_later : ∃ t : State,
    runFor 1 (stateAt 0xBB3D#32 (commands [0x300#10] ++ [.cycle ⟨false, true, [0x000#10, 0x000#10]⟩])) = .next t ∧
    t.rsp.isSome = true ∧ step t = .refused .unserialisedDrivers := ⟨_, rfl, rfl, rfl⟩

/-- One refused line refuses the text, with the reason of the first (log 12). -/
theorem test_asm_refused_line :
    (match assemble ['N', 'O', 'P', '\n', 'U', 'P', 'D', 'A', 'T', 'E', ' ', '2', '5', '6', '\n', 'X'] with
      | .ok _ => none
      | .error e => some e) = some .valueOutOfRange := by rfl

theorem witness_PowerLossIsPreReset : (stateAt 0#32 [.powerLoss]).inputs = .powerLoss :: [] ∧
    (stateAt 0xBB3D#32 [.cycle emptyCycle]).inputs = [emptyCycle].map HostEvent.cycle ++ [] ∧ emptyCycle.rst = false ∧
    emptyCycle.words = [] := by decide

theorem witness_OnlyResetLeavesPreReset : (unresetAt [.cycle ⟨true, true, [0x100#10]⟩]).condition = .preReset ∧
    (∃ t : State, step (unresetAt [.cycle ⟨true, true, [0x100#10]⟩]) = .next t ∧ t.condition = .operational) ∧
    (∃ u : State, exec .init (unresetAt [.cycle ⟨true, true, [0x100#10]⟩]) = .next u) ∧
    (unresetAt (commands [0x100#10])).inputs = .cycle (commandCycle (encode .init)) :: [] :=
  ⟨rfl, ⟨_, rfl, rfl⟩, ⟨_, rfl⟩, rfl⟩

theorem witness_StepKeepsInvariant : stateInv (stateAt 0xBB3D#32 (commands [0x231#10])) ∧
    ∃ t : State, step (stateAt 0xBB3D#32 (commands [0x231#10])) = .next t :=
  ⟨⟨fun _ => by decide, fun _ h => nomatch h⟩, _, rfl⟩

theorem witness_ReachableHighBitsZero : ∃ t : State,
    runFor 2 { State.reset with inputs := commands [0x231#10, 0x232#10] } = .next t ∧ t.condition = .operational :=
  ⟨_, rfl, rfl⟩

theorem witness_DisciplinedHostNeverRefused :
    disciplined (unresetAt (.cycle ⟨true, true, [0x231#10]⟩ :: .powerLoss :: .cycle ⟨true, true, []⟩ :: commands [0x231#10])).condition
      (unresetAt (.cycle ⟨true, true, [0x231#10]⟩ :: .powerLoss :: .cycle ⟨true, true, []⟩ :: commands [0x231#10])).inputs =
      true := by decide

theorem witness_RunIsItsAcceptedCommands :
    (stateAt 0#32 ([commandCycle 0x231#10, emptyCycle, ⟨true, true, [0x300#10]⟩].map HostEvent.cycle)).condition = .operational ∧
      disciplined .operational ([commandCycle 0x231#10, emptyCycle, ⟨true, true, [0x300#10]⟩].map HostEvent.cycle) = true := by
  decide

/-- A bus that passes each word on at once and sees the response port as it is. -/
def directBinding : HostBinding Unit CmdWord OutputPorts where
  attach := fun _ w => ⟨false, [w]⟩
  reply := fun _ _ out => ((), out)

/-- A bus that latches each digest, for a later event, the one with no word, to read. -/
def latchBinding : HostBinding (Option Word) (Option CmdWord) (Option Word) where
  attach := fun _ e => ⟨false, e.toList⟩
  reply := fun held e out => if e.isSome then (out.rspDigest.or held, none) else (held, held)

/-- R31, R42: the latched digest is read two cycles after its FINAL, with a hold between. -/
theorem test_binding_latches_digest : ∃ u, busRun latchBinding none
    [(some 0x300#10, true), (some 0x000#10, false), (none, true)] (stateAt 0xBB3D#32 []) = .next u ∧
    u.replies = [none, none, some 0xBB3D#32] := ⟨_, rfl, by decide⟩

theorem witness_LatencyAndBindingUnobservable : ∃ u v,
    busRun directBinding () [(0x231#10, true)] (stateAt 0#32 []) = .next u ∧
    busRun latchBinding none [(some 0x231#10, false), (none, true), (some 0x231#10, true)] (stateAt 0#32 []) = .next v ∧
    u.cycles.filterMap cycleAction = v.cycles.filterMap cycleAction ∧ (stateAt 0#32 []).condition = .operational :=
  ⟨_, _, rfl, rfl, rfl, rfl⟩

theorem witness_BusRunIsItsPortCycles : ∃ u,
    busRun directBinding () [(0x231#10, true), (0x300#10, true)] (stateAt 0#32 []) = .next u := ⟨_, rfl⟩

theorem witness_BindingSeesResponsePort : (stateAt 0#32 []).condition = .operational ∧
    directBinding.attach () 0x3A5#10 = ⟨false, [0x3A5#10]⟩ ∧ decode 0x3A5#10 = .final ∧
    directBinding.attach () 0x231#10 = ⟨false, [0x231#10]⟩ ∧ decode 0x231#10 ≠ .final ∧
    (latchBinding.attach none none).words = [] := ⟨rfl, rfl, rfl, rfl, by decide, rfl⟩

theorem witness_SourceLawsHold : (stateAt 0xBB3D#32 (commands (hashWords [0x31#8]))).condition = .operational ∧
    (stateAt 0xBB3D#32 (commands (hashWords [0x31#8]))).inputs = commands (hashWords [0x31#8]) ++ [] ∧
    (stateAt 0xBB3D#32 (commands [encode .final, encode .final])).inputs = commands [encode .final, encode .final] ++ [] ∧
    (stateAt 0xBB3D#32 (commands [encode .init, encode .final])).inputs = commands [encode .init, encode .final] ++ [] := by
  decide

theorem witness_SourceLawsHold_chunks : emptyCycle.rst = false ∧ emptyCycle.words = [] ∧
    (stateAt 0#32 (commands [0x231#10] ++ [.cycle emptyCycle] ++ commands [0x232#10, 0x300#10])).inputs =
      commands (updateWords ([0x31#8, 0x32#8].take 1)) ++ ([emptyCycle].map HostEvent.cycle ++
        (commands (updateWords ([0x31#8, 0x32#8].drop 1) ++ [encode .final]) ++ [])) := by decide

theorem witness_DisciplinedStepStaysDisciplined : disciplined (stateAt 0#32 (commands [0x231#10])).condition
    (stateAt 0#32 (commands [0x231#10])).inputs = true := by decide

theorem witness_InstancesDoNotInteract : (∃ sys' : List State,
    stepInstance 1 [stateAt 0#32 [], stateAt 0#32 (commands [0x231#10])] = .next sys') ∧
    ([stateAt 0#32 [], stateAt 0#32 (commands [0x231#10])] : List State)[1]? = some (stateAt 0#32 (commands [0x231#10])) :=
  ⟨⟨_, rfl⟩, rfl⟩

theorem witness_InstanceStepsCommute : (0 : Nat) ≠ 1 ∧ ∃ a b : List State,
    stepInstance 0 [stateAt 0#32 (commands [0x231#10]), stateAt 0#32 (commands [0x100#10])] = .next a ∧
    stepInstance 1 a = .next b := ⟨by decide, _, _, rfl, rfl⟩

end Sys2Proof.Tests
end

section
/-! The port cycle and the step as equations, for later proofs to cite instead of unfolding them. -/

namespace Sys2Proof.Machine

theorem portCycle_of_rst {p : PortCycle} (h : p.rst = true) (s : State) : portCycle p s = .next (applyReset s) := by
  simp [portCycle, h]

theorem portCycle_of_no_step {p : PortCycle} (hr : p.rst = false) (hn : p.ready = false ∨ p.words = []) (s : State) :
    portCycle p s = .next (idleCycle s) := by
  cases hd : p.ready with
  | false => simp [portCycle, hr, hd]
  | true =>
    have hw : p.words = [] := by simpa [hd] using hn
    simp [portCycle, acceptWords, hr, hd, hw]

theorem portCycle_commandCycle {s : State} (hc : s.condition = .operational) (w : CmdWord) :
    portCycle (commandCycle w) s = exec (decode w) s := by
  simp [portCycle, acceptWords, commandCycle, hc]

/-- R39: a cycle at the head of the host's list is taken off it, whatever follows it. -/
theorem step_of_portCycle {p : PortCycle} {s t : State} (h : portCycle p s = .next t) (rest : List HostEvent) :
    step (setInputs (.cycle p :: rest) s) = .next (setInputs rest t) := by
  rw [step_of_input (setInputs_inputs _ s), setInputs_setInputs]
  exact (portCycle_setInputs h rest).1

/-- A command other than FINAL leaves no response (30_encoding.md R42). -/
theorem exec_noResponse_of_ne_final {i : Instr} (hi : i ≠ .final) (s : State) :
    ∃ t, exec i s = .next t ∧ t.rsp = none := by
  cases i with
  | nop => exact ⟨_, exec_nop s, rfl⟩
  | init => exact ⟨_, exec_init s, rfl⟩
  | update c => exact ⟨_, exec_update c s, rfl⟩
  | final => exact absurd rfl hi

/-- A reset and a cycle without a step leave no response (R42, R85). -/
theorem portCycle_noResponse {p : PortCycle} (h : p.rst = true ∨ p.ready = false ∨ p.words = []) (s : State) :
    ∃ t, portCycle p s = .next t ∧ t.rsp = none := by
  cases hr : p.rst with
  | true => exact ⟨_, portCycle_of_rst hr s, rfl⟩
  | false =>
    have hn : p.ready = false ∨ p.words = [] := by simpa [hr] using h
    exact ⟨_, portCycle_of_no_step hr hn s, rfl⟩

/-- No port cycle takes an instance back to the pre-reset condition; only a loss of power does (R84). -/
theorem portCycle_operational {p : PortCycle} {s t : State} (h : portCycle p s = .next t)
    (hc : s.condition = .operational) : t.condition = .operational := by
  obtain ⟨-, rfl⟩ | ⟨-, -, rfl⟩ | ⟨-, -, -, w, -, he⟩ := portCycle_cases h
  · rfl
  · exact hc
  · obtain ⟨-, rfl⟩ | ⟨-, rfl⟩ | ⟨c, -, rfl⟩ | ⟨-, rfl⟩ := exec_cases he <;> exact hc

end Sys2Proof.Machine
end

section
/-! Observation, cycle by cycle: `runActions` follows the register and the response port of the machine. -/

namespace Sys2Proof.Machine

theorem cycleAction_of_rst {p : PortCycle} (h : p.rst = true) : cycleAction p = some .reset := by
  simp [cycleAction, h]

theorem cycleAction_of_no_step {p : PortCycle} (hr : p.rst = false) (hn : p.ready = false ∨ p.words = []) :
    cycleAction p = none := by
  cases hd : p.ready with
  | false => simp [cycleAction, hr, hd]
  | true =>
    have hw : p.words = [] := by simpa [hd] using hn
    simp [cycleAction, hr, hd, hw]

theorem cycleAction_of_word {p : PortCycle} {w : CmdWord} (hr : p.rst = false) (hd : p.ready = true)
    (hw : p.words = [w]) : cycleAction p = some (.command w) := by
  simp [cycleAction, hr, hd, hw]

/-- R59: the record-level effect of a word is what the machine leaves in the register and on the response port; a
command that is no FINAL leaves the port empty (R42). -/
theorem commandEffect_of_exec {w : CmdWord} {s t : State} (h : exec (decode w) s = .next t) :
    commandEffect s.crc w = (t.crc, t.rsp) := by
  obtain ⟨hd, rfl⟩ | ⟨hd, rfl⟩ | ⟨c, hd, rfl⟩ | ⟨hd, rfl⟩ := exec_cases h <;> simp only [commandEffect, hd] <;> rfl

/-- What one port cycle adds to the observation of the cycles after it. -/
theorem runActions_cons_cycle {p : PortCycle} {s t : State} (h : portCycle p s = .next t) (ps : List PortCycle) :
    runActions s.crc ((p :: ps).filterMap cycleAction) =
      ⟨t.rsp.toList ++ (runActions t.crc (ps.filterMap cycleAction)).digests,
        (runActions t.crc (ps.filterMap cycleAction)).crc⟩ := by
  obtain ⟨hr, rfl⟩ | ⟨hr, hn, rfl⟩ | ⟨hr, hd, -, w, hw, he⟩ := portCycle_cases h
  · rw [List.filterMap_cons_some (cycleAction_of_rst hr)]
    rfl
  · rw [List.filterMap_cons_none (cycleAction_of_no_step hr hn)]
    rfl
  · rw [List.filterMap_cons_some (cycleAction_of_word hr hd hw)]
    simp only [runActions, commandEffect_of_exec he]

theorem observe_succ {s t : State} {n : Nat} {o : Observation} (hs : step s = .next t) (ho : observe n t = .next o) :
    observe (n + 1) s = .next ⟨t.rsp.toList ++ o.digests, o.crc⟩ := by
  simp only [observe, hs, ho]

end Sys2Proof.Machine
end

section
/-! Runs through a host binding: the port cycles behind them, what they observe, and what the bus sees in one cycle. -/

namespace Sys2Proof.Machine

variable {σ ε ρ : Type} {b : HostBinding σ ε ρ} {x : σ}

/-- A bus event that presents one word, accepted and not reset, runs the command it decodes to (R39). -/
theorem portCycle_busCycle_of_word {e : ε} {w : CmdWord} {s : State} (ha : b.attach x e = ⟨false, [w]⟩)
    (hc : s.condition = .operational) : portCycle (busCycle b x e true) s = exec (decode w) s := by
  rw [busCycle, ha]
  exact portCycle_commandCycle hc w

/-- A bus event whose port cycle is not refused runs, and its reply sees the output ports of that cycle. -/
theorem busRun_singleton {e : ε} {ready : Bool} {s t : State} (h : portCycle (busCycle b x e ready) s = .next t) :
    ∃ u : BusTrace σ ρ, busRun b x [(e, ready)] s = .next u ∧
      (u.bound, u.replies) =
        ((b.reply x e (outputPorts ready t)).1, [(b.reply x e (outputPorts ready t)).2]) := by
  simp only [busRun, step_of_portCycle h]
  exact ⟨_, rfl, rfl⟩

/-- One port cycle and one reply a bus event, each with the event's `cmd_ready`; the host's list is kept. -/
theorem busRun_shape {es : List (ε × Bool)} {s : State} {u : BusTrace σ ρ} (h : busRun b x es s = .next u) :
    u.replies.length = es.length ∧ u.inst.inputs = s.inputs ∧ u.cycles.map PortCycle.ready = es.map Prod.snd := by
  induction es generalizing x s u with
  | nil =>
    cases h
    exact ⟨rfl, rfl, rfl⟩
  | cons a es ih =>
    obtain ⟨t, v, hp, hv, rfl⟩ := busRun_cons_cases h
    obtain ⟨hreplies, hinputs, hready⟩ := ih hv
    have hkept : t.inputs = s.inputs := (portCycle_setInputs hp []).2
    exact ⟨by simp [hreplies], hinputs.trans hkept, by simp [hready]⟩

theorem busRun_cycles_length {es : List (ε × Bool)} {s : State} {u : BusTrace σ ρ} (h : busRun b x es s = .next u) :
    u.cycles.length = es.length := by
  simpa using congrArg List.length (busRun_shape h).2.2

/-- A host that presents the port cycles of a bus run ahead of its own list runs the instance to the same state. -/
theorem runFor_cycles_of_busRun {es : List (ε × Bool)} {s : State} {u : BusTrace σ ρ} (h : busRun b x es s = .next u) :
    runFor es.length (setInputs (u.cycles.map HostEvent.cycle ++ s.inputs) s) = .next u.inst := by
  induction es generalizing x s u with
  | nil =>
    cases h
    rfl
  | cons a es ih =>
    obtain ⟨t, v, hp, hv, rfl⟩ := busRun_cons_cases h
    have hkept : t.inputs = s.inputs := (portCycle_setInputs hp []).2
    rw [← hkept]
    exact (runFor_succ (step_of_portCycle hp _) _).trans (ih hv)

/-- R95: a bus run from an instance that was reset is observed as its accepted commands and resets alone. -/
theorem observe_cycles_of_busRun {es : List (ε × Bool)} {s : State} {u : BusTrace σ ρ}
    (h : busRun b x es s = .next u) (hc : s.condition = .operational) :
    u.inst.crc = (runActions s.crc (u.cycles.filterMap cycleAction)).crc ∧
    observe es.length (setInputs (u.cycles.map HostEvent.cycle) s) =
      .next (runActions s.crc (u.cycles.filterMap cycleAction)) := by
  induction es generalizing x s u with
  | nil =>
    cases h
    exact ⟨rfl, rfl⟩
  | cons a es ih =>
    obtain ⟨t, v, hp, hv, rfl⟩ := busRun_cons_cases h
    obtain ⟨hcrc, hobs⟩ := ih hv (portCycle_operational hp hc)
    have hcons := observe_succ (step_of_portCycle hp _) hobs
    rw [runActions_cons_cycle hp]
    exact ⟨hcrc, hcons⟩

end Sys2Proof.Machine
end

section
/-! The statements of 00_scope.md: the polynomial's two forms and runs through host bindings. -/

namespace Sys2Proof.Machine

/-- Settles O8: sixteen bits, compared one by one. -/
theorem reflectedPolynomialIsReversal : Obligations.ReflectedPolynomialIsReversal := by
  unfold Obligations.ReflectedPolynomialIsReversal
  constructor
  · decide
  · decide

/-- Settles O51, by induction on the bus events: each takes its own port cycle off the host's list. -/
theorem busRunIsItsPortCycles : Obligations.BusRunIsItsPortCycles := by
  intro σ ε ρ b x es s u h
  obtain ⟨hreplies, hinputs, hready⟩ := busRun_shape h
  exact ⟨busRun_cycles_length h, hreplies, hinputs, hready, runFor_cycles_of_busRun h⟩

/-- Settles O52: the response port after FINAL holds `BE4(crc)`, and nothing after any other cycle. -/
theorem bindingSeesResponsePort : Obligations.BindingSeesResponsePort := by
  intro σ ε ρ b x e s
  refine ⟨fun w hc ha hd => ?_, fun w hc ha hd => ?_, fun ready h => ?_⟩
  · have hp : portCycle (busCycle b x e true) s = .next (respond (be4 s.crc) s) := by
      rw [portCycle_busCycle_of_word ha hc, hd, exec_final]
    rw [← outputPorts_of_be4 true (respond_rsp (be4 s.crc) s)]
    exact busRun_singleton hp
  · obtain ⟨t, he, hrsp⟩ := exec_noResponse_of_ne_final hd s
    have hp : portCycle (busCycle b x e true) s = .next t := by
      rw [portCycle_busCycle_of_word ha hc, he]
    rw [← outputPorts_of_no_response true hrsp]
    exact busRun_singleton hp
  · obtain ⟨t, hp, hrsp⟩ := portCycle_noResponse (p := busCycle b x e ready) h s
    rw [← outputPorts_of_no_response ready hrsp]
    exact busRun_singleton hp

/-- Settles O46: what either run observes is a function of the first register and the accepted commands and resets. -/
theorem latencyAndBindingUnobservable : Obligations.LatencyAndBindingUnobservable := by
  intro σ ε ρ σ' ε' ρ' f g x y es es' s t u v hs ht hcrc hu hv hactions
  obtain ⟨hucrc, huobs⟩ := observe_cycles_of_busRun hu hs
  obtain ⟨hvcrc, hvobs⟩ := observe_cycles_of_busRun hv ht
  rw [hcrc, hactions] at hucrc huobs
  exact ⟨hucrc.trans hvcrc.symm, huobs.trans hvobs.symm⟩

end Sys2Proof.Machine
end

section
/-! What the commands leave unchanged, which of them reads the register, and the digest as a faithful copy of it. -/

namespace Sys2Proof.Machine

@[simp] theorem rspValid_respond (d : Digest) (s : State) : rspValid (respond d s) = true := rfl
@[simp] theorem rspValid_noResponse (s : State) : rspValid (noResponse s) = false := rfl

@[simp] theorem tableRead_eq_tableEntry (i : Byte) : tableRead i = tableEntry i := rfl

/-- R30, R31: the digest determines the value encoded, since the response word gives it back. -/
theorem be4_injective : Function.Injective be4 := Function.LeftInverse.injective digestWord_be4

/-- R14: neither NOP nor FINAL writes the register. -/
theorem exec_keeps_crc {i : Instr} {s t : State} (hi : i = .nop ∨ i = .final) (h : exec i s = .next t) :
    t.crc = s.crc := by
  obtain ⟨-, rfl⟩ | ⟨rfl, -⟩ | ⟨c, rfl, -⟩ | ⟨-, rfl⟩ := exec_cases h
  · exact noResponse_crc s
  · simp at hi
  · simp at hi
  · exact respond_crc _ s

/-- R23: only the ports look at the condition; no command writes it, nor the model's own fields. -/
theorem exec_keeps_other_fields {i : Instr} {s t : State} (h : exec i s = .next t) :
    t.condition = s.condition ∧ t.inputs = s.inputs ∧ t.powerLosses = s.powerLosses := by
  obtain ⟨-, rfl⟩ | ⟨-, rfl⟩ | ⟨c, -, rfl⟩ | ⟨-, rfl⟩ := exec_cases h <;> exact ⟨rfl, rfl, rfl⟩

/-- R42: `rsp_valid` is 1 after FINAL and after no other command. -/
theorem exec_rspValid {i : Instr} {s t : State} (h : exec i s = .next t) : rspValid t = true ↔ i = .final := by
  obtain ⟨rfl, rfl⟩ | ⟨rfl, rfl⟩ | ⟨c, rfl, rfl⟩ | ⟨rfl, rfl⟩ := exec_cases h <;> simp

/-- R14, R61: with the register and the byte 0, no bit of the register can be flipped without the step showing it: bits 0
to 7 choose another table entry, bits 8 to 31 are shifted into the result. -/
theorem crcStep_sees_each_bit : ∀ k : Fin 32, crcStep 0#32 0#8 ≠ crcStep (1#32 <<< (k : Nat)) 0#8 := by decide

end Sys2Proof.Machine
end

section
/-! The invariant of 10_state.md R15 with the response port of R42, through commands, port cycles, steps and runs. -/

namespace Sys2Proof.Machine

theorem highHalf_initValue : highHalf Config.initValue = 0#16 := by decide

/-- With no response on the port the invariant is R15 alone. -/
theorem stateInv_of_no_response {s : State} (hrsp : s.rsp = none) (hhigh : highBitsZero s) : stateInv s :=
  ⟨hhigh, fun d hd => by simp [hrsp] at hd⟩

/-- The invariant does not look at what the host will still present. -/
theorem stateInv_setInputs {s : State} (h : stateInv s) (es : List HostEvent) : stateInv (setInputs es s) := h

/-- R15 over R60 to R64: UPDATE by `crcStep_highHalf`, INIT by writing 0, the others by not writing the register. FINAL needs
an instance that was reset, which `acceptWords` sees to (R74). -/
theorem exec_keeps_stateInv {i : Instr} {s t : State} (hinv : stateInv s) (hc : s.condition = .operational)
    (h : exec i s = .next t) : stateInv t := by
  obtain ⟨hhigh, -⟩ := hinv
  obtain ⟨-, rfl⟩ | ⟨-, rfl⟩ | ⟨c, -, rfl⟩ | ⟨-, rfl⟩ := exec_cases h
  · exact stateInv_of_no_response rfl hhigh
  · exact stateInv_of_no_response rfl fun _ => highHalf_initValue
  · exact stateInv_of_no_response rfl fun _ => crcStep_highHalf (hhigh hc) c
  · refine ⟨hhigh, fun d hd => ⟨hc, ?_⟩⟩
    simpa using hd.symm

theorem portCycle_keeps_stateInv {p : PortCycle} {s t : State} (hinv : stateInv s) (h : portCycle p s = .next t) :
    stateInv t := by
  obtain ⟨-, rfl⟩ | ⟨-, -, rfl⟩ | ⟨-, -, hc, w, -, he⟩ := portCycle_cases h
  · exact stateInv_of_no_response rfl fun _ => highHalf_initValue
  · exact stateInv_of_no_response rfl hinv.1
  · exact exec_keeps_stateInv hinv hc he

/-- A loss of power meets the invariant whatever value it leaves: the condition is then pre-reset and the port empty. -/
theorem losePower_stateInv (s : State) : stateInv (losePower s) :=
  stateInv_of_no_response rfl fun hc => by simp at hc

theorem step_keeps_stateInv {s t : State} (hinv : stateInv s) (h : step s = .next t) : stateInv t := by
  obtain ⟨-, rfl⟩ | ⟨rest, -, rfl⟩ | ⟨p, rest, -, hp⟩ := step_cases h
  · exact stateInv_of_no_response rfl hinv.1
  · exact losePower_stateInv _
  · exact portCycle_keeps_stateInv (stateInv_setInputs hinv rest) hp

/-- A run of at least one cycle is a step and a run from where it leaves. -/
theorem runFor_succ_cases {n : Nat} {s t : State} (h : runFor (n + 1) s = .next t) :
    ∃ u, step s = .next u ∧ runFor n u = .next t := by
  cases hs : step s with
  | next u => exact ⟨u, rfl, (runFor_succ hs n).symm.trans h⟩
  | fault r => exact fault_elim r
  | refused r => simp [runFor, hs] at h

/-- What every step keeps, every run keeps. -/
theorem runFor_keeps {P : State → Prop} (hstep : ∀ {s t : State}, P s → step s = .next t → P t) {n : Nat} {s t : State}
    (hs : P s) (h : runFor n s = .next t) : P t := by
  induction n generalizing s with
  | zero =>
    cases h
    exact hs
  | succ n ih =>
    obtain ⟨u, hu, hrest⟩ := runFor_succ_cases h
    exact ih (hstep hs hu) hrest

theorem reset_stateInv : stateInv State.reset := stateInv_of_no_response rfl fun _ => highHalf_initValue

/-- R15: a register with a zero upper half is at most 0xFFFF. -/
theorem le_of_highHalf_eq_zero {v : Word} (h : highHalf v = 0#16) : v ≤ 0xFFFF#32 := by
  have hnat := congrArg BitVec.toNat h
  have hlt := v.isLt
  simp only [highHalf, BitVec.extractLsb'_toNat, Nat.shiftRight_eq_div_pow, BitVec.toNat_ofNat] at hnat
  rw [BitVec.le_def, BitVec.toNat_ofNat]
  omega

end Sys2Proof.Machine
end

section
/-! The statements of 10_state.md: the register's invariant, who reads and writes it, and its reset values. -/

namespace Sys2Proof.Machine

/-- Settles O42: a cycle, a loss of power and an exhausted host's list each keep the invariant. -/
theorem stepKeepsInvariant : Obligations.StepKeepsInvariant := by
  unfold Obligations.StepKeepsInvariant
  exact fun s t => step_keeps_stateInv

/-- Settles O43: the invariant holds at reset and along every run, and gives the bound. -/
theorem reachableHighBitsZero : Obligations.ReachableHighBitsZero := by
  intro es n t hrun hc
  have hinv : stateInv t := runFor_keeps step_keeps_stateInv (stateInv_setInputs reset_stateInv es) hrun
  have hhigh : highHalf t.crc = 0#16 := hinv.1 hc
  exact ⟨hhigh, le_of_highHalf_eq_zero hhigh⟩

/-- Settles O22: what FINAL shows determines the register, and UPDATE of the byte 0 on the register 0 shows each bit. -/
theorem crcAccessByCommand : Obligations.CrcAccessByCommand := by
  refine ⟨fun s t v h => ?_, fun s v => rfl, fun s t u v ht hu hrsp => ?_, fun k => ?_, fun i s t => exec_keeps_crc⟩
  · rw [exec_nop] at h ⊢
    cases h
    rfl
  · rw [exec_final] at ht hu
    cases ht
    cases hu
    have hdigest : be4 s.crc = be4 v := by simpa using hrsp
    exact (be4_injective hdigest).symm
  · refine ⟨State.reset, _, _, 0#8, 1#32 <<< (k : Nat), exec_update _ _, exec_update _ _, ?_, crcStep_sees_each_bit k⟩
    rw [reset_crc, BitVec.zero_xor]

/-- Settles O21: field by field. -/
theorem commandsFrame : Obligations.CommandsFrame := by
  intro i s t h
  obtain ⟨hcondition, hinputs, hlosses⟩ := exec_keeps_other_fields h
  refine ⟨hcondition, hinputs, hlosses, fun hi => exec_keeps_crc hi h, fun hi => ?_, (exec_rspValid h).mpr⟩
  simpa using mt (exec_rspValid h).mp hi

/-- Settles O33: both values are written as 0, and the table is no part of the state. -/
theorem resetAndInitValues : Obligations.ResetAndInitValues := by
  refine ⟨reset_crc, fun s t h => ?_, tableRead_eq_tableEntry⟩
  rw [exec_init] at h
  cases h
  rfl

end Sys2Proof.Machine
end

section
/-! The bit-serial division: eight rounds take in eight bits at once, which is what the table does (20_memory.md R29). -/

namespace Sys2Proof.Machine

theorem xor_xor_xor_cancel (a b c : Word) : a ^^^ c ^^^ (b ^^^ c) = a ^^^ b := by
  rw [BitVec.xor_comm b, BitVec.xor_assoc, ← BitVec.xor_assoc c, BitVec.xor_self, BitVec.zero_xor]

/-- Where the low bits are clear, no round meets the polynomial. -/
theorem genRounds_of_low_bits_clear (n : Nat) {v : Word} (h : ∀ i < n, v.getLsbD i = false) :
    genRounds n v = v >>> n := by
  induction n generalizing v with
  | zero => simp [genRounds]
  | succ n ih =>
    have hrest : ∀ i < n, (v >>> 1).getLsbD i = false := fun i hi => by
      simpa using h (1 + i) (by omega)
    rw [genRounds, genRound_of_low_bit_clear (h 0 (by omega)), ih hrest, ← BitVec.shiftRight_add, Nat.add_comm]

theorem zext32_ushiftRight_eight (b : Byte) : zext32 b >>> 8 = 0#32 := by
  ext i
  simp [zext32]

/-- XORing the low byte of a register into it clears that byte. -/
theorem getLsbD_xor_zext32_byte0Of (v : Word) {i : Nat} (hi : i < 8) :
    (v ^^^ zext32 (byte0Of v)).getLsbD i = false := by
  simp [zext32, byte0Of, hi, show i < 32 by omega]

/-- R56: eight rounds replace the low byte of a register by its table entry and shift the rest down. -/
theorem genRounds_eight (v : Word) : genRounds 8 v = tableEntry (byte0Of v) ^^^ (v >>> 8) := by
  have hsplit : zext32 (byte0Of v) ^^^ (v ^^^ zext32 (byte0Of v)) = v := by simp
  calc genRounds 8 v
      = genRounds 8 (zext32 (byte0Of v)) ^^^ genRounds 8 (v ^^^ zext32 (byte0Of v)) := by
        rw [← genRounds_xor, hsplit]
    _ = tableEntry (byte0Of v) ^^^ ((v ^^^ zext32 (byte0Of v)) >>> 8) := by
        rw [genRounds_of_low_bits_clear 8 fun i => getLsbD_xor_zext32_byte0Of v]
        rfl
    _ = tableEntry (byte0Of v) ^^^ (v >>> 8) := by
        rw [BitVec.ushiftRight_xor_distrib, zext32_ushiftRight_eight, BitVec.xor_zero]

/-- R29, R61: the recurrence XORs the byte into the low byte of the register and runs eight rounds. -/
theorem crcStep_eq_genRounds (crc : Word) (c : Byte) : crcStep crc c = genRounds 8 (crc ^^^ zext32 c) := by
  rw [genRounds_eight, byte0Of_xor, byte0Of_zext32, BitVec.ushiftRight_xor_distrib, zext32_ushiftRight_eight,
    BitVec.xor_zero, crcStep_eq]

/-- A round on a word whose bit 0 was cancelled only shifts. -/
theorem genRound_xor_low_bit (v : Word) : genRound (v ^^^ (BitVec.ofBool (v.getLsbD 0)).setWidth 32) = v >>> 1 := by
  have hclear : (v ^^^ (BitVec.ofBool (v.getLsbD 0)).setWidth 32).getLsbD 0 = false := by simp
  rw [genRound_of_low_bit_clear hclear]
  ext i
  simp

/-- A round on a register with a whole word XORed in takes the word's bit 0 and leaves the word's other bits to the next
rounds. -/
theorem genRound_xor_eq_crcBit (crc v : Word) : genRound (crc ^^^ v) = crcBit crc (v.getLsbD 0) ^^^ (v >>> 1) := by
  rw [crcBit, ← genRound_xor_low_bit v, ← genRound_xor, xor_xor_xor_cancel]

/-- Feeding the bits of a word one a round is XORing the whole word in before the first round. -/
theorem crcBits_eq_genRounds {bits : List Bool} (crc : Word) {v : Word}
    (h : ∀ i, v.getLsbD i = bits.getD i false) : crcBits crc bits = genRounds bits.length (crc ^^^ v) := by
  induction bits generalizing crc v with
  | nil =>
    have hv : v = 0#32 := BitVec.eq_of_getLsbD_eq fun i _ => by simpa using h i
    rw [hv, BitVec.xor_zero]
    rfl
  | cons b bits ih =>
    have hrest : ∀ i, (v >>> 1).getLsbD i = bits.getD i false := fun i => by
      simpa [Nat.add_comm 1 i] using h (i + 1)
    have hb : v.getLsbD 0 = b := by simpa using h 0
    rw [crcBits, ih _ hrest, List.length_cons, genRounds, genRound_xor_eq_crcBit, hb]

theorem getLsbD_zext32 (c : Byte) (i : Nat) : (zext32 c).getLsbD i = (bitsLsbFirst c).getD i false := by
  rcases Nat.lt_or_ge i 8 with hi | hi
  · interval_cases i <;> simp [zext32, bitsLsbFirst]
  · simp [zext32, bitsLsbFirst, hi]

theorem crcStep_eq_crcBits (crc : Word) (c : Byte) : crcStep crc c = crcBits crc (bitsLsbFirst c) :=
  (crcStep_eq_genRounds crc c).trans (crcBits_eq_genRounds crc (getLsbD_zext32 c)).symm

theorem crcBits_append (crc : Word) (a b : List Bool) : crcBits crc (a ++ b) = crcBits (crcBits crc a) b := by
  induction a generalizing crc with
  | nil => rfl
  | cons x a ih => exact ih (crcBit crc x)

end Sys2Proof.Machine
end

section
/-! The digest and the response word as two views of one value (20_memory.md R30, R31). -/

namespace Sys2Proof.Machine

theorem byte3Of_eq_extract_highHalf (v : Word) : byte3Of v = (highHalf v).extractLsb' 8 8 := by
  ext i hi
  simp [byte3Of, highHalf, show 8 + i < 16 by omega, ← Nat.add_assoc]

theorem byte2Of_eq_extract_highHalf (v : Word) : byte2Of v = (highHalf v).extractLsb' 0 8 := by
  ext i hi
  simp [byte2Of, highHalf, show i < 16 by omega]

/-- R31: `BE4(rsp_digest)` is the digest. -/
theorem be4_digestWord (d : Digest) : be4 (digestWord d) = d := by
  have h3 : byte3Of (digestWord d) = d.byte0 := by
    rw [byte3Of, digestWord, BitVec.extractLsb'_append_eq_of_le (by decide),
      BitVec.extractLsb'_append_eq_of_le (by decide)]
    exact BitVec.extractLsb'_append_eq_left
  have h2 : byte2Of (digestWord d) = d.byte1 := by
    rw [byte2Of, digestWord, BitVec.extractLsb'_append_eq_of_le (by decide),
      BitVec.extractLsb'_append_eq_of_le (by decide)]
    exact BitVec.extractLsb'_append_eq_right
  have h1 : byte1Of (digestWord d) = d.byte2 := by
    rw [byte1Of, digestWord, BitVec.extractLsb'_append_eq_of_le (by decide)]
    exact BitVec.extractLsb'_append_eq_right
  have h0 : byte0Of (digestWord d) = d.byte3 := BitVec.extractLsb'_append_eq_right
  rw [be4, h3, h2, h1, h0]

end Sys2Proof.Machine
end

section
/-! A step of one of several instances, said once (20_memory.md R36, 60_exceptions.md R81). -/

namespace Sys2Proof.Machine

theorem stepInstance_nil (k : Nat) : stepInstance k [] = .next [] := by
  rw [stepInstance]

theorem stepInstance_zero_cons_iff {s : State} {rest sys : List State} :
    stepInstance 0 (s :: rest) = .next sys ↔ ∃ t, step s = .next t ∧ sys = t :: rest := by
  cases hs : step s <;> simp [stepInstance, hs, eq_comm]

theorem stepInstance_succ_cons_iff {k : Nat} {s : State} {rest sys : List State} :
    stepInstance (k + 1) (s :: rest) = .next sys ↔ ∃ rest', stepInstance k rest = .next rest' ∧ sys = s :: rest' := by
  cases hr : stepInstance k rest <;> simp [stepInstance, hr, eq_comm]

/-- A step at the head and a step in the tail do not meet, so either may be first. -/
theorem stepInstance_zero_succ_comm {k : Nat} {s : State} {rest b : List State} :
    (∃ a, stepInstance 0 (s :: rest) = .next a ∧ stepInstance (k + 1) a = .next b) ↔
    ∃ c, stepInstance (k + 1) (s :: rest) = .next c ∧ stepInstance 0 c = .next b := by
  constructor
  · rintro ⟨a, ha, hb⟩
    obtain ⟨t, ht, rfl⟩ := stepInstance_zero_cons_iff.mp ha
    obtain ⟨rest', hrest, rfl⟩ := stepInstance_succ_cons_iff.mp hb
    exact ⟨_, stepInstance_succ_cons_iff.mpr ⟨rest', hrest, rfl⟩, stepInstance_zero_cons_iff.mpr ⟨t, ht, rfl⟩⟩
  · rintro ⟨c, hc, hb⟩
    obtain ⟨rest', hrest, rfl⟩ := stepInstance_succ_cons_iff.mp hc
    obtain ⟨t, ht, rfl⟩ := stepInstance_zero_cons_iff.mp hb
    exact ⟨_, stepInstance_zero_cons_iff.mpr ⟨t, ht, rfl⟩, stepInstance_succ_cons_iff.mpr ⟨rest', hrest, rfl⟩⟩

end Sys2Proof.Machine
end

section
/-! The statements of 20_memory.md: bit order, digest order, idempotence of the commands, and order between instances. -/

namespace Sys2Proof.Machine

/-- Settles O13, by induction on the bytes: each table step is eight rounds on the byte's bits. -/
theorem tableDrivenIsBitSerial : Obligations.TableDrivenIsBitSerial := by
  intro crc bs
  induction bs generalizing crc with
  | nil => rfl
  | cons b bs ih => rw [List.flatMap_cons, crcBits_append, ← crcStep_eq_crcBits, crcStream, ih]

/-- Settles O15: nothing is lost since the response word gives the value back; bytes 0 and 1 are the upper half. -/
theorem digestIsBigEndian : Obligations.DigestIsBigEndian := by
  refine ⟨fun v => rfl, fun v w h => be4_injective h, fun v h => ?_⟩
  have hhigh : highHalf v = 0#16 := h
  constructor
  · exact (byte3Of_eq_extract_highHalf v).trans (by rw [hhigh]; rfl)
  · exact (byte2Of_eq_extract_highHalf v).trans (by rw [hhigh]; rfl)

/-- Settles O16: `BE4` and the response word are inverse to each other, and a store keeps the digest's order. -/
theorem responseWordCarriesDigest : Obligations.ResponseWordCarriesDigest := by
  refine ⟨fun d => ?_, digestWord_be4, be4_digestWord, fun base d => ⟨rfl, rfl⟩⟩
  have h := be4_digestWord d
  exact ⟨congrArg Digest.byte0 h, congrArg Digest.byte1 h, congrArg Digest.byte2 h, congrArg Digest.byte3 h⟩

/-- Settles O49, by induction along the list up to the nearer of the two instances. -/
theorem instanceStepsCommute : Obligations.InstanceStepsCommute := by
  intro j k sys a b hjk hj hk
  induction sys generalizing j k a b with
  | nil =>
    rw [stepInstance_nil] at hj
    cases hj
    rw [stepInstance_nil] at hk
    cases hk
    exact ⟨[], stepInstance_nil k, stepInstance_nil j⟩
  | cons s rest ih =>
    cases j with
    | zero =>
      cases k with
      | zero => exact absurd rfl hjk
      | succ k => exact stepInstance_zero_succ_comm.mp ⟨a, hj, hk⟩
    | succ j =>
      cases k with
      | zero => exact stepInstance_zero_succ_comm.mpr ⟨a, hj, hk⟩
      | succ k =>
        obtain ⟨resta, ha, rfl⟩ := stepInstance_succ_cons_iff.mp hj
        obtain ⟨restb, hb, rfl⟩ := stepInstance_succ_cons_iff.mp hk
        obtain ⟨restc, hc, hcb⟩ := ih j k resta restb (by simpa using hjk) ha hb
        exact ⟨_, stepInstance_succ_cons_iff.mpr ⟨restc, hc, rfl⟩, stepInstance_succ_cons_iff.mpr ⟨restb, hcb, rfl⟩⟩

/-- Settles O23: neither NOP, INIT nor FINAL reads what it changes; UPDATE does. -/
theorem idempotentCommands : Obligations.IdempotentCommands := by
  refine ⟨fun i s t hi h => ?_, fun s hs => ?_⟩
  · obtain ⟨rfl, rfl⟩ | ⟨rfl, rfl⟩ | ⟨c, rfl, -⟩ | ⟨rfl, rfl⟩ := exec_cases h
    · rfl
    · rfl
    · exact absurd rfl (hi c)
    · rfl
  · have hone : crcStep 0#32 0xFF#8 = 0x4040#32 := by decide
    have htwo : crcStep 0x4040#32 0xFF#8 = 0xB001#32 := by decide
    refine ⟨_, _, exec_update _ _, ?_, exec_update _ _, ?_⟩ <;> simp [hs, hone, htwo]

end Sys2Proof.Machine
end

section
/-! The command word as `op` over `data`, and what the decoder reads from it (30_encoding.md R40, R45). -/

namespace Sys2Proof

theorem opOf_append (op : BitVec 2) (data : Byte) : opOf (op ++ data) = op := BitVec.extractLsb'_append_eq_left

theorem dataOf_append (op : BitVec 2) (data : Byte) : dataOf (op ++ data) = data := BitVec.extractLsb'_append_eq_right

/-- R40: a command word is its two fields and nothing else. -/
theorem opOf_append_dataOf (w : CmdWord) : opOf w ++ dataOf w = w :=
  (BitVec.extractLsb'_append_extractLsb'_eq_extractLsb' rfl).trans BitVec.extractLsb'_eq_self

theorem opOf_eq_ofBool_append (w : CmdWord) :
    opOf w = BitVec.ofBool (w.getLsbD 9) ++ BitVec.ofBool (w.getLsbD 8) := by
  apply BitVec.eq_of_getLsbD_eq
  intro i hi
  rw [BitVec.getLsbD_append]
  interval_cases i <;> simp [opOf]

/-- Everything the decoder can read, by `op` alone. -/
theorem decode_cases (w : CmdWord) :
    (opOf w = 0b00#2 ∧ decode w = .nop) ∨ (opOf w = 0b01#2 ∧ decode w = .init) ∨
    (opOf w = 0b10#2 ∧ decode w = .update (dataOf w)) ∨ (opOf w = 0b11#2 ∧ decode w = .final) := by
  rw [opOf_eq_ofBool_append, decode]
  cases w.getLsbD 9 <;> cases w.getLsbD 8
  · exact .inl ⟨rfl, rfl⟩
  · exact .inr (.inl ⟨rfl, rfl⟩)
  · exact .inr (.inr (.inl ⟨rfl, rfl⟩))
  · exact .inr (.inr (.inr ⟨rfl, rfl⟩))

theorem op_decode (w : CmdWord) : (decode w).op = opOf w := by
  obtain ⟨hop, hd⟩ | ⟨hop, hd⟩ | ⟨hop, hd⟩ | ⟨hop, hd⟩ := decode_cases w <;> rw [hop, hd, Instr.op]

theorem decode_of_op_update {w : CmdWord} (h : opOf w = 0b10#2) : decode w = .update (dataOf w) := by
  obtain ⟨hop, -⟩ | ⟨hop, -⟩ | ⟨-, hd⟩ | ⟨hop, -⟩ := decode_cases w
  · simp [h] at hop
  · simp [h] at hop
  · exact hd
  · simp [h] at hop

theorem encode_update_eq_append (c : Byte) : encode (.update c) = 0b10#2 ++ c := by
  rw [encode, BitVec.append_def]
  rfl

/-- Masking a word with the mask of every opcode row keeps `op` and clears `data`. -/
theorem and_opMask_eq_append (w : CmdWord) : w &&& 0x300#10 = opOf w ++ 0#8 := by
  have hmask : (0x300#10 : CmdWord) = 0b11#2 ++ 0#8 := rfl
  have hones : (0b11#2 : BitVec 2) = BitVec.allOnes 2 := rfl
  conv_lhs => rw [← opOf_append_dataOf w, hmask, BitVec.and_append]
  rw [hones, BitVec.and_allOnes, BitVec.and_zero]

/-- R45: decoding is a left inverse of encoding. -/
theorem decode_encode (i : Instr) : decode (encode i) = i := by
  cases i with
  | nop => rfl
  | init => rfl
  | update c => rw [encode_update_eq_append, decode_of_op_update (opOf_append _ c), dataOf_append]
  | final => rfl

theorem encode_injective : Function.Injective encode := Function.LeftInverse.injective decode_encode

theorem encode_decode_of_op_update {w : CmdWord} (h : opOf w = 0b10#2) : encode (decode w) = w := by
  rw [decode_of_op_update h, encode_update_eq_append, ← h, opOf_append_dataOf]

/-- R45: where `data` is ignored, the encoder writes it as 0. -/
theorem encode_decode_of_op_ne_update {w : CmdWord} (h : opOf w ≠ 0b10#2) : encode (decode w) = opOf w ++ 0#8 := by
  obtain ⟨hop, hd⟩ | ⟨hop, hd⟩ | ⟨hop, -⟩ | ⟨hop, hd⟩ := decode_cases w
  · rw [hop, hd]; rfl
  · rw [hop, hd]; rfl
  · exact absurd hop h
  · rw [hop, hd]; rfl

theorem row_eq_op_append (i : Instr) : i.row = ⟨0x300#10, i.op ++ 0#8⟩ := by
  cases i <;> rw [Instr.row, Instr.op] <;> rfl

/-- R43: a row of the table covers the words that have its `op`, whatever their data bits. -/
theorem covers_row_iff (i : Instr) (w : CmdWord) : i.row.covers w = true ↔ opOf w = i.op := by
  rw [OpcodeRow.covers, row_eq_op_append, and_opMask_eq_append, beq_iff_eq]
  constructor
  · intro h
    rw [← opOf_append (opOf w) 0#8, h, opOf_append]
  · intro h
    rw [h]

end Sys2Proof
end

section
/-! Expansion of assembler statements as one map over the operands (30_encoding.md R46 to R49). -/

namespace Sys2Proof.Machine

theorem exists_map_eq_ok {ε α β : Type} (g : α → β) (x : Except ε α) :
    (∃ b, x.map g = .ok b) ↔ ∃ a, x = .ok a := by
  cases x <;> simp [Except.map]

theorem mapM_eq_ok_of_map_eq {ε α β : Type} {f : α → Except ε β} {xs : List α} {ys : List β}
    (h : xs.map f = ys.map Except.ok) : xs.mapM f = .ok ys := by
  calc xs.mapM f
      = (xs.map f).mapM id := by rw [List.mapM_map, Function.id_comp]
    _ = ys.mapM fun y => pure (id y) := by rw [h, List.mapM_map]; rfl
    _ = .ok ys := by rw [List.mapM_pure, List.map_id]; rfl

theorem exists_mapM_eq_ok_iff {ε α β : Type} {f : α → Except ε β} {xs : List α} :
    (∃ ys, xs.mapM f = .ok ys) ↔ ∀ x ∈ xs, ∃ y, f x = .ok y := by
  induction xs with
  | nil => simp [pure, Except.pure]
  | cons x xs ih =>
    rw [List.forall_mem_cons, ← ih, List.mapM_cons]
    cases f x <;> cases xs.mapM f <;> simp [pure, Except.pure, bind, Except.bind]

theorem expandBytes_eq_mapM (vs : List Nat) : expandBytes vs = (vs.mapM imm8).map (List.map Instr.update) := by
  induction vs with
  | nil => rfl
  | cons v vs ih =>
    rw [expandBytes, ih, List.mapM_cons]
    cases imm8 v <;> cases vs.mapM imm8 <;> rfl

theorem expandText_eq_mapM (ts : List TextItem) :
    expandText ts = (ts.mapM TextItem.code).map (List.map Instr.update) := by
  induction ts with
  | nil => rfl
  | cons t ts ih =>
    rw [expandText, ih, List.mapM_cons]
    cases t.code <;> cases ts.mapM TextItem.code <;> rfl

theorem imm8_of_le {v : Nat} (h : v ≤ 255) : imm8 v = .ok (BitVec.ofNat 8 v) := by
  simp [imm8, immInRange, h]

theorem imm8_of_gt {v : Nat} (h : 255 < v) : imm8 v = .error .valueOutOfRange := by
  simp [imm8, immInRange, h]

theorem imm8_toNat (b : Byte) : imm8 b.toNat = .ok b := by
  rw [imm8_of_le (Nat.le_of_lt_succ b.isLt), BitVec.ofNat_toNat, BitVec.setWidth_eq]

/-- R46: a value is accepted exactly in its range. -/
theorem exists_imm8_eq_ok_iff (v : Nat) : (∃ b, imm8 v = .ok b) ↔ immInRange v = true := by
  cases h : immInRange v <;> simp [imm8, h]

/-- R46: an accepted value is not truncated. -/
theorem toNat_of_imm8_eq_ok {v : Nat} {b : Byte} (h : imm8 v = .ok b) : b.toNat = v := by
  rcases Nat.lt_or_ge 255 v with hv | hv
  · simp [imm8_of_gt hv] at h
  · rw [imm8_of_le hv] at h
    cases h
    rw [BitVec.toNat_ofNat]
    omega

/-- R48: an element of a text has a code exactly where it is allowed. -/
theorem exists_code_eq_ok_iff (t : TextItem) : (∃ b, t.code = .ok b) ↔ t.wellFormed = true := by
  cases t with
  | char c => cases h : textChar c <;> simp [TextItem.code, TextItem.wellFormed, h]
  | backslash => simp [TextItem.code, TextItem.wellFormed]
  | quote => simp [TextItem.code, TextItem.wellFormed]
  | byte b => simp [TextItem.code, TextItem.wellFormed]

/-- R47, R48: the commands of operands that all have a byte are one UPDATE a byte, in order. -/
theorem expandBytes_eq_ok {vs : List Nat} {bs : List Byte} (h : vs.map imm8 = bs.map Except.ok) :
    expandBytes vs = .ok (bs.map Instr.update) := by
  rw [expandBytes_eq_mapM, mapM_eq_ok_of_map_eq h]
  rfl

theorem expandText_eq_ok {ts : List TextItem} {bs : List Byte} (h : ts.map TextItem.code = bs.map Except.ok) :
    expandText ts = .ok (bs.map Instr.update) := by
  rw [expandText_eq_mapM, mapM_eq_ok_of_map_eq h]
  rfl

theorem expandBytes_map_toNat (bs : List Byte) : expandBytes (bs.map BitVec.toNat) = .ok (bs.map Instr.update) :=
  expandBytes_eq_ok (by simp [imm8_toNat])

theorem exists_expandBytes_eq_ok_iff (vs : List Nat) :
    (∃ is, expandBytes vs = .ok is) ↔ vs.all immInRange = true := by
  rw [expandBytes_eq_mapM, exists_map_eq_ok, exists_mapM_eq_ok_iff]
  simp only [exists_imm8_eq_ok_iff, List.all_eq_true]

theorem exists_expandText_eq_ok_iff (ts : List TextItem) :
    (∃ is, expandText ts = .ok is) ↔ ts.all TextItem.wellFormed = true := by
  rw [expandText_eq_mapM, exists_map_eq_ok, exists_mapM_eq_ok_iff]
  simp only [exists_code_eq_ok_iff, List.all_eq_true]

/-- R46 to R49: the assembler refuses exactly the ill-formed statements. -/
theorem exists_expand_eq_ok_iff (st : Stmt) : (∃ is, st.expand = .ok is) ↔ st.wellFormed = true := by
  cases st with
  | nop => simp [Stmt.expand, Stmt.wellFormed]
  | init => simp [Stmt.expand, Stmt.wellFormed]
  | update v => exact (exists_map_eq_ok _ _).trans (exists_imm8_eq_ok_iff v)
  | final => simp [Stmt.expand, Stmt.wellFormed]
  | updateb vs => exact exists_expandBytes_eq_ok_iff vs
  | updates text => exact exists_expandText_eq_ok_iff text
  | hash text => exact (exists_map_eq_ok _ _).trans (exists_expandText_eq_ok_iff text)

/-- R48: the allowed characters, with the double quote and the backslash by their codes. -/
theorem textChar_iff (c : Char) :
    textChar c = true ↔ 0x20 ≤ c.toNat ∧ c.toNat ≤ 0x7E ∧ c ≠ '\x22' ∧ c ≠ '\x5C' := by
  simp [textChar, printable, and_assoc]

/-- R48: an allowed character's code is its own. -/
theorem code_char_of_textChar {c : Char} (h : textChar c = true) :
    ∃ b : Byte, (TextItem.char c).code = .ok b ∧ b.toNat = c.toNat := by
  obtain ⟨-, hle, -⟩ := (textChar_iff c).mp h
  refine ⟨BitVec.ofNat 8 c.toNat, by simp [TextItem.code, h], ?_⟩
  rw [BitVec.toNat_ofNat]
  omega

theorem code_char_of_not_textChar {c : Char} (h : ¬ textChar c = true) :
    (TextItem.char c).code = .error .badCharacter := by
  simp [TextItem.code, h]

end Sys2Proof.Machine
end

section
/-! Reading back what the disassembler prints (30_encoding.md R46). -/

namespace Sys2Proof.Machine

theorem hexDigit_hexChar : ∀ n < 16, hexDigit (hexChar n) = some n := by decide

theorem hexChar_ne_newline : ∀ n < 16, '\n' ≠ hexChar n := by decide

/-- A literal of two hexadecimal digits at the end of a line. -/
theorem takeImm_two_hex_digits {h l : Char} {hi lo : Nat} (hh : hexDigit h = some hi) (hl : hexDigit l = some lo) :
    takeImm ['0', 'x', h, l] = .ok (hi * 16 + lo, []) := by
  simp [takeImm, takeDigits, hh, hl]

/-- A line of `UPDATE`, one blank and a literal with nothing after it. -/
theorem readLine_update {operand : List Char} {v : Nat} (h : takeImm (skipBlanks operand) = .ok (v, [])) :
    readLine (['U', 'P', 'D', 'A', 'T', 'E', ' '] ++ operand) = .ok (some (.update v)) := by
  have hline : takeWord (skipBlanks (['U', 'P', 'D', 'A', 'T', 'E', ' '] ++ operand)) =
      (['U', 'P', 'D', 'A', 'T', 'E'], ' ' :: operand) := rfl
  have hblank : skipBlanks (' ' :: operand) = skipBlanks operand := rfl
  have hstart : atEnd (['U', 'P', 'D', 'A', 'T', 'E', ' '] ++ operand) = false := rfl
  simp only [readLine, hstart, hline, hblank, h]
  rfl

theorem readLine_printInstr_update (c : Byte) : readLine (printInstr (.update c)) = .ok (some (.update c.toNat)) := by
  have hlt := c.isLt
  have himm := takeImm_two_hex_digits (hexDigit_hexChar (c.toNat / 16) (by omega))
    (hexDigit_hexChar (c.toNat % 16) (by omega))
  rw [Nat.div_add_mod' c.toNat 16] at himm
  exact readLine_update himm

theorem expand_update_toNat (c : Byte) : (Stmt.update c.toNat).expand = .ok [.update c] := by
  rw [Stmt.expand, imm8_toNat]
  rfl

/-- R46: the line printed for a command is a statement that stands for it. -/
theorem assembleLine_printInstr (i : Instr) : assembleLine (printInstr i) = .ok [i] := by
  cases i with
  | nop => rfl
  | init => rfl
  | update c => simp only [assembleLine, readLine_printInstr_update, expand_update_toNat]
  | final => rfl

theorem splitLines_of_no_newline {cs : List Char} (h : '\n' ∉ cs) : splitLines cs = [cs] := by
  induction cs with
  | nil => rfl
  | cons c cs ih =>
    obtain ⟨hc, hcs⟩ := not_or.mp (mt List.mem_cons.mpr h)
    simp [splitLines, Ne.symm hc, ih hcs]

theorem newline_notMem_printInstr (i : Instr) : '\n' ∉ printInstr i := by
  cases i with
  | nop => decide
  | init => decide
  | update c =>
    have hlt := c.isLt
    simp [printInstr, hexChar_ne_newline (c.toNat / 16) (by omega), hexChar_ne_newline (c.toNat % 16) (by omega)]
  | final => decide

/-- A text of one line is that line's commands, encoded. -/
theorem assemble_of_one_line {line : List Char} {is : List Instr} (hn : '\n' ∉ line)
    (h : assembleLine line = .ok is) : assemble line = .ok (is.map encode) := by
  rw [assemble, splitLines_of_no_newline hn]
  simp [assembleLines, h, Except.map]

end Sys2Proof.Machine
end

section
/-! The port cycle of a word given as a number (log 8). -/

namespace Sys2Proof.Machine

/-- A number that the decoder reads as a command is presented as a word of that command. -/
theorem fetchCycle_of_decodeTableWord {nbits w : Nat} {i : Instr} (h : decodeTableWord nbits w = some i) :
    ∃ cw, fetchCycle nbits w = commandCycle cw ∧ decode cw = i := by
  cases hp : portWord nbits w with
  | ok cw => exact ⟨cw, by simp [fetchCycle, hp], by simpa [decodeTableWord, hp] using h⟩
  | error e => simp [decodeTableWord, hp] at h

/-- R39, R59: a step on one accepted word is the command it decodes to. -/
theorem step_commandCycle {s : State} {w : CmdWord} {rest : List HostEvent} (hc : s.condition = .operational)
    (h : s.inputs = .cycle (commandCycle w) :: rest) : step s = exec (decode w) (setInputs rest s) :=
  (step_of_input h).trans (portCycle_commandCycle ((setInputs_condition rest s).trans hc) w)

end Sys2Proof.Machine
end

section
/-! The statements of 30_encoding.md: the decoder and the encoder, the assembler, and the command port. -/

namespace Sys2Proof.Machine

/-- Settles O25: a word is `op` over `data`, the decoder reads both and the encoder writes both back. -/
theorem decodeEncodeAgree : Obligations.DecodeEncodeAgree := by
  refine ⟨fun i _ => decode_encode i, fun w => (op_decode w).symm, fun w => decode_of_op_update, fun w => ?_⟩
  split
  case isTrue h => exact encode_decode_of_op_update h
  case isFalse h => rw [encode_decode_of_op_ne_update h, and_opMask_eq_append]

/-- Settles O29: the codes of a text are the operands of the `UPDATEB` it stands for. -/
theorem updatesExpandsCodes : Obligations.UpdatesExpandsCodes := by
  refine ⟨rfl, fun text codes h => ?_, fun c hlo hhi hquote hslash => ?_, fun c h => ?_, rfl, rfl, fun b => rfl⟩
  · exact (expandText_eq_ok h).trans (expandBytes_map_toNat codes).symm
  · exact code_char_of_textChar ((textChar_iff c).mpr ⟨hlo, hhi, hquote, hslash⟩)
  · refine ⟨_, code_char_of_not_textChar fun hc => ?_⟩
    obtain ⟨hlo, hhi, hquote, hslash⟩ := (textChar_iff c).mp hc
    rcases h with h | h | h | h
    · exact absurd hlo (Nat.not_le.mpr h)
    · exact absurd hhi (Nat.not_le.mpr h)
    · exact hquote h
    · exact hslash h

/-- Settles O31: `imm8` answers for the values in range alone, and with the value itself. -/
theorem illFormedStatementsRefused : Obligations.IllFormedStatementsRefused := by
  refine ⟨exists_expand_eq_ok_iff, fun v hv => ?_, fun v is h => ?_⟩
  · rw [Stmt.expand, imm8_of_gt hv]
    rfl
  · rw [Stmt.expand] at h
    cases hb : imm8 v with
    | error e => simp [hb, Except.map] at h
    | ok b =>
      have his : [Instr.update b] = is := by simpa [hb, Except.map] using h
      exact ⟨b, his.symm, toNat_of_imm8_eq_ok hb⟩

/-- Settles O32: a printed command is a text of one line, and that line is read back as the command. -/
theorem assembleDisassemble : Obligations.AssembleDisassemble :=
  ⟨assembleLine_printInstr, fun w =>
    assemble_of_one_line (newline_notMem_printInstr (decode w)) (assembleLine_printInstr (decode w))⟩

/-- Settles O26: every row's mask leaves `op` alone, and no two patterns have the same one. -/
theorem everyWordIsOneCommand : Obligations.EveryWordIsOneCommand := by
  refine ⟨fun w => ?_, fun v w hop hne => encode_injective ?_⟩
  · simp only [opcodeRows, List.filter_cons, covers_row_iff]
    obtain ⟨hop, hd⟩ | ⟨hop, hd⟩ | ⟨hop, hd⟩ | ⟨hop, hd⟩ := decode_cases w <;> simp [hop, hd, Instr.op, Instr.row]
  · rw [encode_decode_of_op_ne_update hne, encode_decode_of_op_ne_update (hop ▸ hne), hop]

/-- Settles O27: each word of the listing, decoded and encoded. -/
theorem canonicalWordsDecode : Obligations.CanonicalWordsDecode := by
  unfold Obligations.CanonicalWordsDecode
  decide

/-- Settles O28: no operand in range is refused. -/
theorem updatebExpandsInOrder : Obligations.UpdatebExpandsInOrder := ⟨rfl, expandBytes_map_toNat⟩

/-- Settles O30: where the text expands, `HASH` puts INIT before it and FINAL after it. -/
theorem hashExpandsToWholeComputation : Obligations.HashExpandsToWholeComputation := by
  intro text is h
  have htext : expandText text = .ok is := h
  rw [Stmt.expand, htext]
  rfl

/-- Settles O36: a number that is a command word is presented as one, at the head of the host's list. -/
theorem stepRunsDecodedCommand : Obligations.StepRunsDecodedCommand := by
  refine ⟨fun s w rest hc h => step_commandCycle hc h, fun s nbits w i hc h => ?_⟩
  obtain ⟨cw, hcycle, rfl⟩ := fetchCycle_of_decodeTableWord h
  have hinputs : (s.withFetchWord nbits w).inputs = .cycle (commandCycle cw) :: s.inputs := by
    rw [withFetchWord_inputs, hcycle]
  exact step_commandCycle (s := s.withFetchWord nbits w) hc hinputs

/-- Settles O38: both are `idleCycle`, which clears the response port alone. -/
theorem cyclesWithoutStepChangeNothing : Obligations.CyclesWithoutStepChangeNothing :=
  ⟨fun s _ rest h hrst hn => (step_of_input h).trans (portCycle_of_no_step hrst hn (setInputs rest s)),
    fun _ => step_of_no_input⟩

end Sys2Proof.Machine
end

section
/-! The table as an algebra: it is linear, it is given by its basis, and since a round on a register with a zero upper half
loses nothing, no two entries agree (40_table_gen.md R56). -/

namespace Sys2Proof.Machine

/-- With the upper half zero, a round that meets the polynomial sets bit 15 and a round that does not clears it, so a round
with result 0 only shifted, and shifted out a 0. -/
theorem eq_zero_of_genRound_eq_zero {r : Word} (hr : highHalf r = 0#16) (h : genRound r = 0#32) : r = 0#32 := by
  have h16 : r[16] = false := by
    simpa [highHalf] using congrArg (BitVec.getLsbD · 0) hr
  cases hb : r.getLsbD 0
  case true =>
    rw [genRound_of_low_bit hb] at h
    have h15 : (r >>> 1 ^^^ Config.polyRefl).getLsbD 15 = true := by
      simp [Config.polyRefl, h16]
    simp [h] at h15
  case false =>
    rw [genRound_of_low_bit_clear hb] at h
    apply BitVec.eq_of_getLsbD_eq
    intro i _
    cases i with
    | zero => simpa using hb
    | succ i => simpa [Nat.add_comm] using congrArg (BitVec.getLsbD · i) h

theorem eq_zero_of_genRounds_eq_zero (n : Nat) {r : Word} (hr : highHalf r = 0#16) (h : genRounds n r = 0#32) :
    r = 0#32 := by
  induction n generalizing r with
  | zero => exact h
  | succ n ih => exact eq_zero_of_genRound_eq_zero hr (ih (genRound_highHalf hr) h)

/-- R56: linearity, from that of a round. -/
theorem tableEntry_xor (a b : Byte) : tableEntry (a ^^^ b) = tableEntry a ^^^ tableEntry b := by
  rw [tableEntry, zext32_xor, genRounds_xor]
  rfl

theorem tableEntry_zero : tableEntry 0#8 = 0#32 := by decide

/-- R56: a linear function with kernel 0 is injective. -/
theorem tableEntry_injective : Function.Injective tableEntry := by
  intro a b h
  have hentry : tableEntry (a ^^^ b) = 0#32 := by rw [tableEntry_xor, h, BitVec.xor_self]
  have hindex : zext32 (a ^^^ b) = 0#32 := eq_zero_of_genRounds_eq_zero _ (highHalf_zext32 _) hentry
  have hxor : a ^^^ b = 0#8 := by rw [← byte0Of_zext32 (a ^^^ b), hindex]; rfl
  exact BitVec.xor_eq_zero_iff.mp hxor

theorem tableEntry_foldl_xor (is : List Byte) (a : Byte) :
    tableEntry (is.foldl (· ^^^ ·) a) = (is.map tableEntry).foldl (· ^^^ ·) (tableEntry a) := by
  induction is generalizing a with
  | nil => rfl
  | cons i is ih => rw [List.foldl_cons, ih, tableEntry_xor, List.map_cons, List.foldl_cons]

theorem getLsbD_ite_one_shiftLeft (i : Byte) (k j : Nat) :
    (if i.getLsbD k then 1#8 <<< k else 0#8).getLsbD j = (decide (j = k) && i.getLsbD j) := by
  rcases eq_or_ne j k with rfl | hj
  · cases hi : i.getLsbD j
    · simp
    · simp [BitVec.lt_of_getLsbD hi]
  · have hone : (1#8 <<< k).getLsbD j = false := by
      rw [← BitVec.twoPow_eq, BitVec.getLsbD_twoPow, decide_eq_false hj.symm, Bool.and_false]
    split <;> simp [hj, hone]

/-- The XOR of the one-bit bytes of the set bits below bit `n` has just those bits. -/
theorem getLsbD_foldl_xor_bits (i : Byte) (n j : Nat) :
    (((List.range n).map fun k => if i.getLsbD k then 1#8 <<< k else 0#8).foldl (· ^^^ ·) 0#8).getLsbD j =
      (decide (j < n) && i.getLsbD j) := by
  induction n with
  | zero => simp
  | succ n ih =>
    rw [List.range_succ, List.map_append, List.foldl_append, List.map_singleton, List.foldl_cons, List.foldl_nil,
      BitVec.getLsbD_xor, ih, getLsbD_ite_one_shiftLeft]
    rcases Nat.lt_trichotomy j n with hj | rfl | hj
    · simp [hj, Nat.ne_of_lt hj, Nat.lt_succ_of_lt hj]
    · simp
    · simp [show ¬ j < n by omega, show j ≠ n by omega, show ¬ j < n + 1 by omega]

/-- A byte is the XOR of the one-bit bytes of its set bits. -/
theorem foldl_xor_bits (i : Byte) :
    ((List.range 8).map fun k => if i.getLsbD k then 1#8 <<< k else 0#8).foldl (· ^^^ ·) 0#8 = i := by
  apply BitVec.eq_of_getLsbD_eq
  intro j hj
  rw [getLsbD_foldl_xor_bits, decide_eq_true hj, Bool.true_and]

/-- R56: an entry is the XOR of the basis entries of its index's set bits. -/
theorem tableEntry_eq_foldl_basis (i : Byte) : tableEntry i =
    ((List.range 8).map fun k => if i.getLsbD k then tableEntry (1#8 <<< k) else 0#32).foldl (· ^^^ ·) 0#32 := by
  calc tableEntry i
      = tableEntry (((List.range 8).map fun k => if i.getLsbD k then 1#8 <<< k else 0#8).foldl (· ^^^ ·) 0#8) := by
        rw [foldl_xor_bits]
    _ = ((List.range 8).map fun k => if i.getLsbD k then tableEntry (1#8 <<< k) else 0#32).foldl (· ^^^ ·) 0#32 := by
        simp only [tableEntry_foldl_xor, tableEntry_zero, List.map_map, Function.comp_def, apply_ite tableEntry]

end Sys2Proof.Machine
end

section
/-! The listing and the other two realisations: each holds the entries in the order of their indices (40_table_gen.md R54,
R55, R57; 70_reset_and_hazards.md R87). -/

namespace Sys2Proof.Machine

theorem romPart0_eq : romPart0 = (List.range' 0 64).map fun n => tableEntry (BitVec.ofNat 8 n) := by decide
theorem romPart1_eq : romPart1 = (List.range' 64 64).map fun n => tableEntry (BitVec.ofNat 8 n) := by decide
theorem romPart2_eq : romPart2 = (List.range' 128 64).map fun n => tableEntry (BitVec.ofNat 8 n) := by decide
theorem romPart3_eq : romPart3 = (List.range' 192 64).map fun n => tableEntry (BitVec.ofNat 8 n) := by decide

/-- R57: the listing is the entries in the order of their indices. -/
theorem rom_eq : rom = (List.range 256).map fun n => tableEntry (BitVec.ofNat 8 n) := by
  rw [rom, romPart0_eq, romPart1_eq, romPart2_eq, romPart3_eq]
  simp only [List.range_eq_range', ← List.map_append]
  rw [List.range'_append_1 (s := 0) (m := 64), List.range'_append_1 (s := 0) (m := 128),
    List.range'_append_1 (s := 0) (m := 192)]

theorem rom_length : rom.length = 256 := by simp [rom_eq]

theorem rom_getElem? (i : Byte) : rom[i.toNat]? = some (tableEntry i) := by
  simp [rom_eq, i.isLt]

theorem tableEntry_mem_rom (i : Byte) : tableEntry i ∈ rom := List.mem_of_getElem? (rom_getElem? i)

/-- R55: no entry of the listing is above 0xFF01. -/
theorem le_of_mem_rom {v : Word} (hv : v ∈ rom) : v ≤ 0xFF01#32 := by
  have h : rom.all (fun v => decide (v ≤ 0xFF01#32)) = true := by
    simp only [rom, List.all_append, Bool.and_eq_true]
    exact ⟨⟨⟨by decide, by decide⟩, by decide⟩, by decide⟩
  simpa using List.all_eq_true.mp h v hv

theorem tableEntry_le (i : Byte) : tableEntry i ≤ 0xFF01#32 := le_of_mem_rom (tableEntry_mem_rom i)

/-- R54: eight cascaded stages are eight rounds. -/
theorem cascade_eq_tableEntry (i : Byte) : cascade i = tableEntry i := rfl

/-- R87: the fill is complete from its 256th tick on. -/
theorem tableReady_generatedRam_iff {n : Nat} : tableReady .generatedRam n = true ↔ 256 ≤ n := by
  simp [tableReady, ramAfter_length, Config.tableEntries]

/-- R54: the entry a complete fill holds at an index. -/
theorem ramAfter_getElem?_of_full {n : Nat} (hn : 256 ≤ n) (i : Byte) :
    (ramAfter n)[i.toNat]? = some (tableEntry i) := by
  have hi : i.toNat < (ramAfter n).length := by
    rw [ramAfter_length, Nat.min_eq_right hn]
    exact i.isLt
  rw [ramAfter_getElem? n i.toNat hi, BitVec.ofNat_toNat, BitVec.setWidth_eq]

end Sys2Proof.Machine
end

section
/-! The statements of 40_table_gen.md: a round, an entry, and the table as an algebra, a listing and three realisations. -/

namespace Sys2Proof.Machine

/-- Settles O1: the two arms of the definition, and the upper half kept zero round by round. -/
theorem genRoundShiftsAndXors : Obligations.GenRoundShiftsAndXors :=
  ⟨fun _ => genRound_of_low_bit, fun _ => genRound_of_low_bit_clear, by decide, by decide, by decide,
    fun n i => genRounds_highHalf n (highHalf_zext32 i)⟩

/-- Settles O4: the table is linear since a round is, and its kernel is 0. -/
theorem tableIsLinearAndInjective : Obligations.TableIsLinearAndInjective :=
  ⟨tableEntry_zero, tableEntry_xor, tableEntry_eq_foldl_basis, by decide, fun _ _ h => tableEntry_injective h⟩

/-- Settles O6: only the fill has to become complete, which takes it 256 ticks. -/
theorem tableRealisationsAgree : Obligations.TableRealisationsAgree := by
  constructor
  · rintro (_ | _ | _)
    · exact ⟨0, fun _ _ => rfl⟩
    · exact ⟨0, fun _ _ => rfl⟩
    · exact ⟨256, fun _ => tableReady_generatedRam_iff.mpr⟩
  · intro impl n i hready
    cases impl with
    | rom => exact rom_getElem? i
    | combinational => exact congrArg some (cascade_eq_tableEntry i)
    | generatedRam => exact ramAfter_getElem?_of_full (tableReady_generatedRam_iff.mp hready) i

/-- Settles O2: `genRounds` unrolled eight times. -/
theorem tableEntryIsEightRounds : Obligations.TableEntryIsEightRounds := by
  refine ⟨fun i => rfl, fun i => rfl, tableEntry_zero, ?_, ?_, ?_, ?_⟩ <;> decide

/-- Settles O3: the range from the zero upper half, the largest entry from the listing. -/
theorem tableEntriesFitSixteenBits : Obligations.TableEntriesFitSixteenBits := by
  have hmax : tableEntry 0x54#8 = 0xFF01#32 := by decide
  refine ⟨fun i => ⟨le_of_highHalf_eq_zero (tableEntry_highHalf i), tableEntry_highHalf i⟩, hmax, fun i => ?_⟩
  rw [hmax]
  exact tableEntry_le i

/-- Settles O5: the listing is the entries in index order, and each has a zero upper half. -/
theorem romListingIsTheTable : Obligations.RomListingIsTheTable := by
  refine ⟨rom_length, rom_getElem?, List.all_eq_true.mpr fun v hv => ?_⟩
  obtain ⟨n, -, rfl⟩ := List.mem_map.mp (rom_eq ▸ hv)
  exact beq_iff_eq.mpr (tableEntry_highHalf _)

end Sys2Proof.Machine
end

section
/-! The recurrence as an algebra: linear, keeping the upper half zero, and shifting only where the byte is the register's
own low byte (41_accumulator.md R61, R69); streams as its iteration (R65). -/

namespace Sys2Proof.Machine

/-- R69: eight rounds are linear, and so is XORing the byte in. -/
theorem crcStep_xor (crc1 crc2 : Word) (c1 c2 : Byte) :
    crcStep (crc1 ^^^ crc2) (c1 ^^^ c2) = crcStep crc1 c1 ^^^ crcStep crc2 c2 := by
  have harg : crc1 ^^^ crc2 ^^^ zext32 (c1 ^^^ c2) = crc1 ^^^ zext32 c1 ^^^ (crc2 ^^^ zext32 c2) := by
    rw [zext32_xor]
    ac_rfl
  simp only [crcStep_eq_genRounds, harg, genRounds_xor]

/-- R63: the byte that equals the register's low byte reads entry 0, so the step only shifts. -/
theorem crcStep_byte0Of (crc : Word) : crcStep crc (byte0Of crc) = crc >>> 8 := by
  rw [crcStep_eq, BitVec.xor_self, tableEntry_zero, BitVec.zero_xor]

theorem byte0Of_ushiftRight_eight (v : Word) : byte0Of (v >>> 8) = byte1Of v := by
  ext i
  simp [byte0Of, byte1Of]

/-- With the upper half zero, a shift by one byte leaves `crc[15:8]` alone. -/
theorem ushiftRight_eight_of_highHalf {v : Word} (h : highHalf v = 0#16) : v >>> 8 = zext32 (byte1Of v) := by
  have hle : v.toNat ≤ 65535 := le_of_highHalf_eq_zero h
  apply BitVec.eq_of_toNat_eq
  simp only [zext32, byte1Of, BitVec.toNat_ushiftRight, BitVec.toNat_setWidth, BitVec.extractLsb'_toNat,
    Nat.shiftRight_eq_div_pow]
  omega

theorem ushiftRight_eight_twice_of_highHalf {v : Word} (h : highHalf v = 0#16) : v >>> 8 >>> 8 = 0#32 := by
  rw [ushiftRight_eight_of_highHalf h, zext32_ushiftRight_eight]

/-- R65: chunk boundaries do not matter. -/
theorem crcStream_append (crc : Word) (a b : List Byte) :
    crcStream crc (a ++ b) = crcStream (crcStream crc a) b := by
  induction a generalizing crc with
  | nil => rfl
  | cons x a ih => exact ih (crcStep crc x)

/-- R15 over a whole stream. -/
theorem crcStream_highHalf {crc : Word} (h : highHalf crc = 0#16) (bs : List Byte) :
    highHalf (crcStream crc bs) = 0#16 := by
  induction bs generalizing crc with
  | nil => exact h
  | cons b bs ih => exact ih (crcStep_highHalf h b)

/-- A register with a zero upper half is brought to 0 by its own two low bytes: each step only shifts. -/
theorem crcStream_own_bytes {crc : Word} (h : highHalf crc = 0#16) :
    crcStream crc [byte0Of crc, byte1Of crc] = 0#32 := by
  rw [crcStream, crcStep_byte0Of, crcStream, ← byte0Of_ushiftRight_eight, crcStep_byte0Of, crcStream,
    ushiftRight_eight_twice_of_highHalf h]

end Sys2Proof.Machine
end

section
/-! Data bits that the decoder ignores, and UPDATE by the value its recurrence takes (30_encoding.md R41, R43;
41_accumulator.md R63). -/

namespace Sys2Proof.Machine

theorem opOf_or_data (w : CmdWord) (d : Byte) : opOf (w ||| d.setWidth 10) = opOf w := by
  ext i
  simp [opOf]

/-- R41: where `op` is not UPDATE's, whatever is written into `data` decodes to the same command. -/
theorem decode_or_data {w : CmdWord} (h : opOf w ≠ 0b10#2) (d : Byte) : decode (w ||| d.setWidth 10) = decode w := by
  have hop := opOf_or_data w d
  exact everyWordIsOneCommand.2 _ _ hop (hop ▸ h)

theorem exec_update_of_crcStep {c : Byte} {s : State} {v : Word} (h : crcStep s.crc c = v) :
    exec (.update c) s = .next { s with crc := v, rsp := none } := by
  rw [exec_update, h]
  rfl

/-- FINAL by the digest of the register. -/
theorem exec_final_of_be4 {s : State} {d : Digest} (h : be4 s.crc = d) :
    exec .final s = .next { s with rsp := some d } := by
  rw [exec_final, h]
  rfl

theorem be4_zero : be4 0#32 = ⟨0#8, 0#8, 0#8, 0#8⟩ := by decide

theorem messageDigest_nil : messageDigest [] = ⟨0#8, 0#8, 0#8, 0#8⟩ := be4_zero

/-- R30: with the upper half zero, the digest is two zero bytes and the two low bytes. -/
theorem be4_of_highHalf {v : Word} (h : highHalf v = 0#16) : be4 v = ⟨0#8, 0#8, byte1Of v, byte0Of v⟩ := by
  rw [be4, byte3Of_eq_extract_highHalf, byte2Of_eq_extract_highHalf, h]
  rfl

end Sys2Proof.Machine
end

section
/-! Runs of serialised cycles: no cycle of one is refused, and it is observed as its actions (R59, R95). -/

namespace Sys2Proof.Machine

/-- R82: a cycle in which at most one driver can have a command accepted. -/
def Serialised (p : PortCycle) : Prop := p.rst = true ∨ p.ready = false ∨ p.words.length ≤ 1

theorem serialised_commandCycle (w : CmdWord) : Serialised (commandCycle w) := .inr (.inr (Nat.le_refl 1))

theorem serialised_of_no_step {p : PortCycle} (h : p.ready = false ∨ p.words = []) : Serialised p := by
  obtain hready | hwords := h
  · exact .inr (.inl hready)
  · exact .inr (.inr (by simp [hwords]))

/-- R93: after reset, the duties of a host that keeps the power on are that each of its cycles is serialised. -/
theorem disciplined_cons_cycle_iff (p : PortCycle) (es : List HostEvent) :
    disciplined .operational (.cycle p :: es) = true ↔ Serialised p ∧ disciplined .operational es = true := by
  obtain ⟨rst, ready, words⟩ := p
  match rst, ready, words with
  | true, _, _ => simp [disciplined, Serialised]
  | false, false, _ => simp [disciplined, Serialised]
  | false, true, [] => simp [disciplined, Serialised]
  | false, true, [_] => simp [disciplined, Serialised]
  | false, true, _ :: _ :: _ => simp [disciplined, Serialised]

theorem disciplined_cycles_iff (ps : List PortCycle) :
    disciplined .operational (ps.map HostEvent.cycle) = true ↔ ∀ p ∈ ps, Serialised p := by
  induction ps with
  | nil => simp [disciplined]
  | cons p ps ih => rw [List.map_cons, disciplined_cons_cycle_iff, ih, List.forall_mem_cons]

/-- R59: no command has a fault or a refusal arm. -/
theorem exists_exec_eq_next (i : Instr) (s : State) : ∃ t, exec i s = .next t := by
  cases i with
  | nop => exact ⟨_, exec_nop s⟩
  | init => exact ⟨_, exec_init s⟩
  | update c => exact ⟨_, exec_update c s⟩
  | final => exact ⟨_, exec_final s⟩

/-- R74: an instance that was reset refuses no serialised cycle. -/
theorem exists_portCycle_of_serialised {p : PortCycle} {s : State} (hp : Serialised p)
    (hc : s.condition = .operational) : ∃ t, portCycle p s = .next t := by
  obtain ⟨rst, ready, words⟩ := p
  match rst, ready, words with
  | true, _, _ => exact ⟨_, portCycle_of_rst rfl s⟩
  | false, false, _ => exact ⟨_, portCycle_of_no_step rfl (.inl rfl) s⟩
  | false, true, [] => exact ⟨_, portCycle_of_no_step rfl (.inr rfl) s⟩
  | false, true, [w] =>
    obtain ⟨t, ht⟩ := exists_exec_eq_next (decode w) s
    exact ⟨t, (portCycle_commandCycle hc w).trans ht⟩
  | false, true, _ :: _ :: _ => simp [Serialised] at hp

/-- R39: the cycle at the head of the host's list is taken off it. -/
theorem step_of_cycle_input {p : PortCycle} {s t : State} {rest : List HostEvent} (hin : s.inputs = .cycle p :: rest)
    (h : portCycle p s = .next t) : step s = .next (setInputs rest t) :=
  (step_of_input hin).trans (portCycle_setInputs h rest).1

/-- R95: serialised cycles, whatever the host presents after them, are observed as their actions. -/
theorem observe_cycles {ps : List PortCycle} {s : State} {rest : List HostEvent} (hps : ∀ p ∈ ps, Serialised p)
    (hc : s.condition = .operational) (hin : s.inputs = ps.map HostEvent.cycle ++ rest) :
    observe ps.length s = .next (runActions s.crc (ps.filterMap cycleAction)) := by
  induction ps generalizing s with
  | nil => rfl
  | cons p ps ih =>
    obtain ⟨hp, hps⟩ := List.forall_mem_cons.mp hps
    obtain ⟨t, ht⟩ := exists_portCycle_of_serialised hp hc
    have hct : t.condition = .operational := portCycle_operational ht hc
    have hobs := ih (s := setInputs (ps.map HostEvent.cycle ++ rest) t) hps hct rfl
    rw [runActions_cons_cycle ht]
    have hcons := observe_succ (step_of_cycle_input hin ht) hobs
    exact hcons

theorem commands_eq_map_cycle (ws : List CmdWord) : commands ws = (ws.map commandCycle).map HostEvent.cycle := by
  rw [List.map_map]
  rfl

theorem serialised_commandCycles (ws : List CmdWord) : ∀ p ∈ ws.map commandCycle, Serialised p :=
  List.forall_mem_map.mpr fun w _ => serialised_commandCycle w

theorem filterMap_cycleAction_commandCycles (ws : List CmdWord) :
    (ws.map commandCycle).filterMap cycleAction = ws.map Action.command := by
  rw [List.filterMap_map, ← List.filterMap_eq_map]
  rfl

/-- R92: cycles without a step are no action. -/
theorem filterMap_cycleAction_of_no_step {gap : List PortCycle}
    (h : ∀ p ∈ gap, p.rst = false ∧ (p.ready = false ∨ p.words = [])) : gap.filterMap cycleAction = [] :=
  List.filterMap_eq_nil_iff.mpr fun p hp => cycleAction_of_no_step (h p hp).1 (h p hp).2

/-- A run of words accepted one a cycle is observed as the words' effects on the register. -/
theorem observe_commands {ws : List CmdWord} {s : State} {rest : List HostEvent} (hc : s.condition = .operational)
    (hin : s.inputs = commands ws ++ rest) :
    observe ws.length s = .next (runActions s.crc (ws.map Action.command)) := by
  rw [commands_eq_map_cycle] at hin
  have hobs := observe_cycles (serialised_commandCycles ws) hc hin
  rwa [List.length_map, filterMap_cycleAction_commandCycles] at hobs

@[simp] theorem updateWords_length (bs : List Byte) : (updateWords bs).length = bs.length := List.length_map _

theorem updateWords_append (a b : List Byte) : updateWords (a ++ b) = updateWords a ++ updateWords b :=
  List.map_append

theorem commandEffect_update (crc : Word) (c : Byte) :
    commandEffect crc (encode (.update c)) = (crcStep crc c, none) := by
  rw [commandEffect, decode_encode]

theorem runActions_update_cons (crc : Word) (c : Byte) (acts : List Action) :
    runActions crc (.command (encode (.update c)) :: acts) = runActions (crcStep crc c) acts := by
  simp [runActions, commandEffect_update]

/-- R65: the UPDATEs of a stream return no digest and leave its `CRC_STREAM`. -/
theorem runActions_updateWords_append (crc : Word) (bs : List Byte) (acts : List Action) :
    runActions crc ((updateWords bs).map Action.command ++ acts) = runActions (crcStream crc bs) acts := by
  induction bs generalizing crc with
  | nil => rfl
  | cons b bs ih => exact (runActions_update_cons crc b _).trans (ih (crcStep crc b))

theorem runActions_final (crc : Word) : runActions crc [.command (encode .final)] = ⟨[be4 crc], crc⟩ := rfl

/-- A stream and FINAL return the stream's digest. -/
theorem runActions_updateWords_final (crc : Word) (bs : List Byte) :
    runActions crc ((updateWords bs ++ [encode .final]).map Action.command) =
      ⟨[be4 (crcStream crc bs)], crcStream crc bs⟩ := by
  rw [List.map_append, runActions_updateWords_append]
  exact runActions_final _

/-- R49: a whole hash computation returns the message's digest, whatever the register held. -/
theorem runActions_hashWords (crc : Word) (msg : List Byte) :
    runActions crc ((hashWords msg).map Action.command) = ⟨[messageDigest msg], messageCrc msg⟩ :=
  runActions_updateWords_final Config.initValue msg

theorem hashWords_length (msg : List Byte) : (hashWords msg).length = msg.length + 2 := by
  simp [hashWords]

/-- A hash computation from any register. -/
theorem observe_hashWords {s : State} {msg : List Byte} {rest : List HostEvent} (hc : s.condition = .operational)
    (hin : s.inputs = commands (hashWords msg) ++ rest) :
    observe (msg.length + 2) s = .next ⟨[messageDigest msg], messageCrc msg⟩ := by
  rw [← hashWords_length, observe_commands hc hin, runActions_hashWords]

theorem observe_updates_final {s : State} {bs : List Byte} {rest : List HostEvent} (hc : s.condition = .operational)
    (hin : s.inputs = commands (updateWords bs ++ [encode .final]) ++ rest) :
    observe (bs.length + 1) s = .next ⟨[be4 (crcStream s.crc bs)], crcStream s.crc bs⟩ := by
  have hobs := observe_commands hc hin
  rwa [List.length_append, updateWords_length, runActions_updateWords_final] at hobs

/-- The cycles of a stream in two chunks and FINAL, with a gap between the chunks (R70). -/
def chunkedCycles (a b : List Byte) (gap : List PortCycle) : List PortCycle :=
  (updateWords a).map commandCycle ++ (gap ++ (updateWords b ++ [encode .final]).map commandCycle)

theorem map_cycle_chunkedCycles (a b : List Byte) (gap : List PortCycle) :
    (chunkedCycles a b gap).map HostEvent.cycle =
      commands (updateWords a) ++ (gap.map HostEvent.cycle ++ commands (updateWords b ++ [encode .final])) := by
  rw [chunkedCycles, List.map_append, List.map_append, commands_eq_map_cycle, commands_eq_map_cycle]

theorem chunkedCycles_length (a b : List Byte) (gap : List PortCycle) :
    (chunkedCycles a b gap).length = (a ++ b).length + gap.length + 1 := by
  simp only [chunkedCycles, List.length_append, List.length_map, updateWords_length, List.length_singleton]
  omega

theorem chunkedCycles_serialised (a b : List Byte) {gap : List PortCycle}
    (hgap : ∀ p ∈ gap, p.rst = false ∧ (p.ready = false ∨ p.words = [])) :
    ∀ p ∈ chunkedCycles a b gap, Serialised p := by
  rw [chunkedCycles, List.forall_mem_append, List.forall_mem_append]
  exact ⟨serialised_commandCycles _, fun p hp => serialised_of_no_step (hgap p hp).2, serialised_commandCycles _⟩

/-- The actions of a chunked stream are those of the whole stream. -/
theorem filterMap_cycleAction_chunkedCycles (a b : List Byte) {gap : List PortCycle}
    (hgap : ∀ p ∈ gap, p.rst = false ∧ (p.ready = false ∨ p.words = [])) :
    (chunkedCycles a b gap).filterMap cycleAction =
      (updateWords (a ++ b) ++ [encode .final]).map Action.command := by
  rw [chunkedCycles, List.filterMap_append, List.filterMap_append, filterMap_cycleAction_commandCycles,
    filterMap_cycleAction_commandCycles, filterMap_cycleAction_of_no_step hgap, List.nil_append, ← List.map_append,
    ← List.append_assoc, updateWords_append]

/-- R70: neither the chunk boundary nor the cycles without a step there are observed. -/
theorem observe_chunks_final {s : State} {a b : List Byte} {gap : List PortCycle} {rest : List HostEvent}
    (hc : s.condition = .operational) (hgap : ∀ p ∈ gap, p.rst = false ∧ (p.ready = false ∨ p.words = []))
    (hin : s.inputs = commands (updateWords a) ++ (gap.map HostEvent.cycle ++
      (commands (updateWords b ++ [encode .final]) ++ rest))) :
    observe ((a ++ b).length + gap.length + 1) s =
      .next ⟨[be4 (crcStream s.crc (a ++ b))], crcStream s.crc (a ++ b)⟩ := by
  have hcycles : s.inputs = (chunkedCycles a b gap).map HostEvent.cycle ++ rest := by
    rw [hin, map_cycle_chunkedCycles, List.append_assoc, List.append_assoc]
  rw [← chunkedCycles_length, observe_cycles (chunkedCycles_serialised a b hgap) hc hcycles,
    filterMap_cycleAction_chunkedCycles a b hgap, runActions_updateWords_final]

/-- One accepted command at the head of a run. -/
theorem runFor_commands_cons {i : Instr} {s t : State} (hc : s.condition = .operational) (h : exec i s = .next t)
    (n : Nat) (ws : List CmdWord) (rest : List HostEvent) :
    runFor (n + 1) (setInputs (commands (encode i :: ws) ++ rest) s) = runFor n (setInputs (commands ws ++ rest) t) := by
  rw [← decode_encode i] at h
  exact runFor_succ (step_of_portCycle ((portCycle_commandCycle hc (encode i)).trans h) _) n

end Sys2Proof.Machine
end

section
/-! The statements of 41_accumulator.md: the recurrence, streams, the four commands, and runs as their commands. -/

namespace Sys2Proof.Machine

/-- Settles O45: a host that keeps its duties presents serialised cycles. -/
theorem runIsItsAcceptedCommands : Obligations.RunIsItsAcceptedCommands := by
  intro s ps hc hin hd
  rw [hin, disciplined_cycles_iff] at hd
  exact observe_cycles (rest := []) hd hc (by rw [hin, List.append_nil])

/-- Settles O47: each law is one of the effects of commands on the register. -/
theorem sourceLawsHold : Obligations.SourceLawsHold := by
  refine ⟨fun s t msg rest rest' hs ht hins hint => ?_, fun s rest hc hin => observe_commands hc hin,
    fun s rest hc hin => ?_, fun s msg k gap rest hc hgap hin => ?_, fun s rest hc => ?_⟩
  · rw [observe_hashWords hs hins, observe_hashWords ht hint]
    exact ⟨rfl, rfl⟩
  · have hempty := observe_hashWords (msg := []) hc hin
    rwa [messageDigest_nil] at hempty
  · have hchunks := observe_chunks_final hc hgap hin
    rw [List.take_append_drop] at hchunks
    have hwhole := observe_updates_final
      (s := setInputs (commands (updateWords msg ++ [encode .final]) ++ rest) s) hc rfl
    exact ⟨hchunks, hchunks.trans hwhole.symm⟩
  · calc runFor 2 (setInputs (commands [encode .init, encode .init] ++ rest) s)
        = runFor 1 (setInputs (commands [encode .init] ++ rest) (noResponse (writeCrc Config.initValue s))) :=
          runFor_commands_cons hc (exec_init s) 1 _ rest
      _ = runFor 0 (setInputs rest (noResponse (writeCrc Config.initValue s))) :=
          runFor_commands_cons (s := noResponse (writeCrc Config.initValue s)) hc (exec_init _) 0 [] rest
      _ = runFor 1 (setInputs (commands [encode .init] ++ rest) s) :=
          (runFor_commands_cons hc (exec_init s) 0 [] rest).symm

/-- Settles O9: the index is the low byte XOR the byte, and the rest is the shift. -/
theorem crcStepIsTableXorShift : Obligations.CrcStepIsTableXorShift := by
  refine ⟨crcIndex_eq, fun crc c => rfl, tableRead_eq_tableEntry, fun crc => ⟨?_, ?_⟩, fun crc c h => ?_⟩
  · ext i
    simp
  · ext i
    simp [BitVec.getLsbD_of_ge crc (8 + (24 + i)) (by omega)]
  · exact (crcStep_eq crc c).trans (congrArg (_ ^^^ ·) (ushiftRight_eight_of_highHalf h))

/-- Settles O10. -/
theorem crcStepIsLinear : Obligations.CrcStepIsLinear := crcStep_xor

/-- Settles O11, by induction on the bytes. -/
theorem updateCommandsComputeStream : Obligations.UpdateCommandsComputeStream := by
  intro s bs rest hc hin
  induction bs generalizing s with
  | nil =>
    have hrest : s.inputs = rest := hin
    rw [← hrest]
    rfl
  | cons b bs ih =>
    have hstep := step_commandCycle (w := encode (.update b)) (rest := commands (updateWords bs) ++ rest) hc hin
    rw [decode_encode, exec_update] at hstep
    rw [List.length_cons, runFor_succ hstep, ih]
    · simp [crcStream]
    · exact hc
    · rfl

/-- Settles O12: one chunk after the other. -/
theorem streamChunkInvariance : Obligations.StreamChunkInvariance :=
  ⟨fun _ => rfl, fun _ _ _ => rfl, fun crc a b => (crcStream_append crc a b).symm, fun _ => ⟨rfl, rfl⟩⟩

/-- Settles O14: the register after a message has a zero upper half, so its own two low bytes are the rest of it. -/
theorem residueIsZero : Obligations.ResidueIsZero := by
  intro msg
  rw [crcStream_append]
  exact crcStream_own_bytes (crcStream_highHalf highHalf_initValue msg)

/-- Settles O19: every form is a value of the recurrence. -/
theorem updateFoldsOneByte : Obligations.UpdateFoldsOneByte := by
  refine ⟨fun c s => exec_update_of_crcStep (crcStep_eq s.crc c), fun c s => exec_update c s,
    fun c => ⟨decode_encode (.update c), rfl⟩, fun s h => ?_,
    fun s => exec_update_of_crcStep (crcStep_byte0Of s.crc), fun s h => ?_, fun s h => ?_, fun s h => ?_,
    fun c s t h ht => ?_⟩
  · exact exec_update_of_crcStep (v := s.crc) (by rw [h]; decide)
  · exact exec_update_of_crcStep (by rw [h]; decide)
  · exact exec_update_of_crcStep (by rw [h]; decide)
  · exact exec_update_of_crcStep (by rw [h]; decide)
  · rw [exec_update] at ht
    cases ht
    exact crcStep_highHalf h c

/-- Settles O20: FINAL only puts `BE4` of the register on the port. -/
theorem finalReturnsDigest : Obligations.FinalReturnsDigest := by
  refine ⟨exec_final, fun s t h => ?_, decode_or_data (w := 0x300#10) (by decide), rfl,
    exec_final_of_be4 be4_zero, fun s t h => ?_,
    fun s t h => ?_, fun c s t h => ?_, fun s t hhigh h => ?_, fun s h => ?_⟩
  · rw [exec_final] at h
    cases h
    exact ⟨rfl, congrArg some (digestWord_be4 s.crc)⟩
  · rw [exec_init] at h
    cases h
    exact exec_final_of_be4 be4_zero
  · rw [exec_final] at h
    cases h
    rfl
  · rw [exec_final] at h
    cases h
    rfl
  · rw [exec_final_of_be4 (be4_of_highHalf hhigh)] at h
    cases h
    rfl
  · exact exec_final_of_be4 (by rw [h]; decide)

/-- Settles O37: the decoded command, on the state with the word taken off the host's list. -/
theorem stepEffectOfEachCommand : Obligations.StepEffectOfEachCommand := by
  intro s w rest hc hin
  rw [step_commandCycle hc hin]
  refine ⟨fun hd => ?_, fun hd => ?_, fun c hd => ?_, fun hd => ?_⟩
  · rw [hd, exec_nop]; rfl
  · rw [hd, exec_init]; rfl
  · rw [hd, exec_update]; rfl
  · rw [hd, exec_final]; rfl

/-- Settles O17: NOP writes the response port only, which no command reads. -/
theorem nopChangesNothing : Obligations.NopChangesNothing := by
  refine ⟨exec_nop, decode_or_data (w := 0x000#10) (by decide), rfl, fun s t u a b _ hu => ?_⟩
  rw [exec_nop] at hu
  cases hu
  rfl

/-- Settles O18: INIT reads nothing. -/
theorem initClearsCrc : Obligations.InitClearsCrc := by
  refine ⟨exec_init, decode_or_data (w := 0x100#10) (by decide), rfl, rfl, fun s t h => ?_⟩
  rw [exec_init] at h
  cases h
  rfl

end Sys2Proof.Machine
end

section
/-! Which port cycles are refused, and the host's duties as the absence of such a cycle (60_exceptions.md R74, R82). -/

namespace Sys2Proof.Machine

/-- R74 on one cycle of an instance in condition `c`: a command before the first reset, or two drivers in one step. -/
def RefusedCycle (c : Condition) (p : PortCycle) : Prop :=
  p.rst = false ∧ p.ready = true ∧ ((c = .preReset ∧ p.words ≠ []) ∨ 2 ≤ p.words.length)

theorem portCycle_refused_iff {p : PortCycle} {s : State} :
    (∃ r, portCycle p s = .refused r) ↔ RefusedCycle s.condition p := by
  obtain ⟨rst, ready, words⟩ := p
  match rst, ready, words, hc : s.condition with
  | true, _, _, _ => simp [portCycle, RefusedCycle]
  | false, false, _, _ => simp [portCycle, RefusedCycle]
  | false, true, [], _ => simp [portCycle, acceptWords, RefusedCycle]
  | false, true, _ :: _, .preReset => simp [portCycle, acceptWords, RefusedCycle, hc]
  | false, true, [w], .operational =>
    obtain ⟨t, ht⟩ := exists_exec_eq_next (decode w) s
    simp [portCycle, acceptWords, RefusedCycle, hc, ht]
  | false, true, _ :: _ :: _, .operational => simp [portCycle, acceptWords, RefusedCycle, hc]

/-- R71: there is no fault, so a cycle that is not refused has a next state. -/
theorem exists_portCycle_of_not_refused {p : PortCycle} {s : State} (h : ¬ RefusedCycle s.condition p) :
    ∃ t, portCycle p s = .next t := by
  cases ht : portCycle p s with
  | next t => exact ⟨t, rfl⟩
  | fault r => exact fault_elim r
  | refused r => exact absurd (portCycle_refused_iff.mp ⟨r, ht⟩) h

/-- R86: a reset ends the pre-reset condition, and no other cycle changes the condition. -/
def conditionAfter (c : Condition) (p : PortCycle) : Condition := if p.rst then .operational else c

theorem portCycle_condition {p : PortCycle} {s t : State} (h : portCycle p s = .next t) :
    t.condition = conditionAfter s.condition p := by
  obtain ⟨hr, rfl⟩ | ⟨hr, -, rfl⟩ | ⟨hr, -, -, w, -, he⟩ := portCycle_cases h
  · simp [conditionAfter, hr]
  · simp [conditionAfter, hr]
  · simp [conditionAfter, hr, (exec_keeps_other_fields he).1]

/-- R93: from any condition, the duties are that the first cycle is not refused and the rest keeps them after it. -/
theorem disciplined_cycle_iff (c : Condition) (p : PortCycle) (rest : List HostEvent) :
    disciplined c (.cycle p :: rest) = true ↔
      ¬ RefusedCycle c p ∧ disciplined (conditionAfter c p) rest = true := by
  obtain ⟨rst, ready, words⟩ := p
  match rst, ready, words, c with
  | true, _, _, _ => simp [disciplined, RefusedCycle, conditionAfter]
  | false, false, _, _ => simp [disciplined, RefusedCycle, conditionAfter]
  | false, true, [], _ => simp [disciplined, RefusedCycle, conditionAfter]
  | false, true, [_], .preReset => simp [disciplined, RefusedCycle]
  | false, true, [_], .operational => simp [disciplined, RefusedCycle, conditionAfter]
  | false, true, _ :: _ :: _, _ => simp [disciplined, RefusedCycle]

/-- R84: a loss of power at the head of the host's list. -/
theorem step_of_powerLoss {s : State} {rest : List HostEvent} (h : s.inputs = .powerLoss :: rest) :
    step s = .next (losePower (setInputs rest s)) := step_of_input h

/-- R74: a step is refused where the cycle it takes is. -/
theorem step_refused_iff {s : State} : (∃ r, step s = .refused r) ↔
    ∃ p rest, s.inputs = .cycle p :: rest ∧ RefusedCycle s.condition p := by
  match hin : s.inputs with
  | [] => simp [step_of_no_input hin]
  | .powerLoss :: rest => simp [step_of_powerLoss hin]
  | .cycle p :: rest =>
    have hstep : step s = portCycle p (setInputs rest s) := step_of_input hin
    rw [hstep, portCycle_refused_iff, setInputs_condition]
    simp

end Sys2Proof.Machine
end

section
/-! Runs that come to a refused step, and runs of cycles without a step (60_exceptions.md R74, R84). -/

namespace Sys2Proof.Machine

theorem runFor_succ_of_refused {s : State} {r : Refusal} (h : step s = .refused r) (n : Nat) :
    runFor (n + 1) s = .refused r := by
  simp only [runFor, h]

theorem observe_succ_of_refused {s : State} {r : Refusal} (h : step s = .refused r) (n : Nat) :
    observe (n + 1) s = .refused r := by
  simp only [observe, h]

/-- R74: a refusal after the first step refuses the observation from the first step on. -/
theorem observe_succ_refused {s t : State} {r : Refusal} {n : Nat} (hs : step s = .next t)
    (ht : observe n t = .refused r) : observe (n + 1) s = .refused r := by
  simp only [observe, hs, ht]

/-- R74: a run that comes to a refused step is refused whole. -/
theorem run_refused_of_reaches_refused {s t : State} {r : Refusal} {k : Nat} (hk : runFor k s = .next t)
    (ht : step t = .refused r) (n : Nat) :
    observe (k + n + 1) s = .refused r ∧ runFor (k + n + 1) s = .refused r := by
  induction k generalizing s with
  | zero =>
    cases hk
    exact ⟨observe_succ_of_refused ht _, runFor_succ_of_refused ht _⟩
  | succ k ih =>
    obtain ⟨u, hu, hrest⟩ := runFor_succ_cases hk
    obtain ⟨hobs, hrun⟩ := ih hrest
    rw [show k + 1 + n + 1 = k + n + 1 + 1 by omega]
    exact ⟨observe_succ_refused hu hobs, (runFor_succ hu _).trans hrun⟩

/-- R84: while powered, the register is held through any cycles without a step. -/
theorem runFor_of_no_step {ps : List PortCycle} {s : State} {rest : List HostEvent}
    (hps : ∀ p ∈ ps, p.rst = false ∧ (p.ready = false ∨ p.words = []))
    (hin : s.inputs = ps.map HostEvent.cycle ++ rest) :
    ∃ t, runFor ps.length s = .next t ∧ t.crc = s.crc ∧ t.condition = s.condition ∧ t.inputs = rest := by
  induction ps generalizing s with
  | nil => exact ⟨s, rfl, rfl, rfl, hin⟩
  | cons p ps ih =>
    obtain ⟨⟨hr, hn⟩, hps⟩ := List.forall_mem_cons.mp hps
    have hstep := step_of_cycle_input hin (portCycle_of_no_step hr hn s)
    obtain ⟨t, ht, hfields⟩ := ih (s := setInputs (ps.map HostEvent.cycle ++ rest) (idleCycle s)) hps rfl
    exact ⟨t, (runFor_succ hstep _).trans ht, hfields⟩

end Sys2Proof.Machine
end

section
/-! The statements of 60_exceptions.md: the host's duties, the two refusals, loss of power, and instances apart. -/

namespace Sys2Proof.Machine

/-- Settles O50: the duties exclude a refused cycle, and are stated for the condition each event leaves. -/
theorem disciplinedStepStaysDisciplined : Obligations.DisciplinedStepStaysDisciplined := by
  intro s hd
  match hin : s.inputs with
  | [] => exact ⟨idleCycle s, step_of_no_input hin, by rw [idleCycle_inputs, hin, disciplined]⟩
  | .powerLoss :: rest =>
    rw [hin, disciplined] at hd
    exact ⟨_, step_of_powerLoss hin, hd⟩
  | .cycle p :: rest =>
    rw [hin, disciplined_cycle_iff] at hd
    obtain ⟨hp, hrest⟩ := hd
    obtain ⟨t, ht⟩ := exists_portCycle_of_not_refused hp
    rw [← portCycle_condition ht] at hrest
    exact ⟨setInputs rest t, step_of_cycle_input hin ht, hrest⟩

/-- Settles O44, by induction on the number of steps. -/
theorem disciplinedHostNeverRefused : Obligations.DisciplinedHostNeverRefused := by
  intro n s hd
  induction n generalizing s with
  | zero => exact ⟨s, rfl⟩
  | succ n ih =>
    obtain ⟨u, hu, hdu⟩ := disciplinedStepStaysDisciplined s hd
    rw [runFor_succ hu]
    exact ih u hdu

/-- Settles O39: a step is refused where its cycle is, and a refusal comes back through every step before it. -/
theorem refusedExactlyAtInterface : Obligations.RefusedExactlyAtInterface :=
  ⟨fun _ => step_refused_iff, fun _ _ _ _ n hk ht => run_refused_of_reaches_refused hk ht n⟩

/-- Settles O40: a loss of power is `losePower`, and a cycle without a step is `idleCycle`, which keeps the register. -/
theorem powerLossIsPreReset : Obligations.PowerLossIsPreReset := by
  refine ⟨fun s rest hin => ⟨_, step_of_powerLoss hin, rfl, rfl, rfl⟩, ?_⟩
  rintro _ s ps rest rfl hps hin
  exact runFor_of_no_step hps hin

/-- Settles O48, by induction along the list up to the instance that steps. -/
theorem instancesDoNotInteract : Obligations.InstancesDoNotInteract := by
  intro k sys sys' h
  induction sys generalizing k sys' with
  | nil =>
    rw [stepInstance_nil] at h
    cases h
    exact ⟨rfl, fun _ _ => rfl, fun s hs => by simp at hs⟩
  | cons s rest ih =>
    cases k with
    | zero =>
      obtain ⟨t, ht, rfl⟩ := stepInstance_zero_cons_iff.mp h
      refine ⟨rfl, fun j hj => ?_, fun u hu => ?_⟩
      · obtain ⟨i, rfl⟩ := Nat.exists_eq_succ_of_ne_zero hj
        rfl
      · cases hu
        exact ⟨t, rfl, ht⟩
    | succ k =>
      obtain ⟨rest', hrest, rfl⟩ := stepInstance_succ_cons_iff.mp h
      obtain ⟨hlen, hother, hown⟩ := ih k rest' hrest
      refine ⟨congrArg (· + 1) hlen, fun j hj => ?_, hown⟩
      cases j with
      | zero => rfl
      | succ j => exact hother j (by simpa using hj)

/-- Settles O24: no command stops, and there is no fault to stop with. -/
theorem noExceptionExists : Obligations.NoExceptionExists :=
  ⟨exists_exec_eq_next, fun w s => exists_exec_eq_next (decode w) s, fun _ r _ => fault_elim r⟩

end Sys2Proof.Machine
end

section
/-! What a cycle with `rst = 1` does to a state, what ends the pre-reset condition, and `cmd_ready` held back until the
table is complete (70_reset_and_hazards.md R85 to R87). -/

namespace Sys2Proof.Machine

/-- R85: a step on a cycle with `rst = 1` is a reset, whatever the cycle presents besides. -/
theorem step_of_rst {p : PortCycle} {s : State} {rest : List HostEvent} (hin : s.inputs = .cycle p :: rest)
    (hr : p.rst = true) : step s = .next (applyReset (setInputs rest s)) :=
  (step_of_input hin).trans (portCycle_of_rst hr _)

theorem eq_applyReset_of_step {p : PortCycle} {s t : State} {rest : List HostEvent} (hin : s.inputs = .cycle p :: rest)
    (hr : p.rst = true) (h : step s = .next t) : t = applyReset (setInputs rest s) := by
  rw [step_of_rst hin hr] at h
  cases h
  rfl

/-- R85: "Holding `rst` for several cycles has the same effect as one cycle." -/
theorem applyReset_setInputs_applyReset (es : List HostEvent) (s : State) :
    applyReset (setInputs es (applyReset s)) = setInputs es (applyReset s) := rfl

theorem conditionAfter_preReset_iff {p : PortCycle} : conditionAfter .preReset p = .operational ↔ p.rst = true := by
  simp [conditionAfter]

/-- R86: no loss of power, idle cycle or command ends the pre-reset condition. -/
theorem exists_rst_of_leaves_preReset {s t : State} (h : step s = .next t) (hs : s.condition = .preReset)
    (ht : t.condition = .operational) : ∃ p rest, s.inputs = .cycle p :: rest ∧ p.rst = true := by
  obtain ⟨-, rfl⟩ | ⟨rest, -, rfl⟩ | ⟨p, rest, hin, hp⟩ := step_cases h
  · simp [hs] at ht
  · simp at ht
  · have hcond := portCycle_condition hp
    rw [setInputs_condition, hs, ht] at hcond
    exact ⟨p, rest, hin, conditionAfter_preReset_iff.mp hcond.symm⟩

/-- R74: before the first reset no presented command is accepted. -/
theorem refusedCycle_commandCycle (w : CmdWord) : RefusedCycle .preReset (commandCycle w) :=
  ⟨rfl, rfl, .inl ⟨rfl, List.cons_ne_nil w []⟩⟩

/-- R87: where `cmd_ready` waits for the fill, the table is complete in every cycle with `cmd_ready = 1`. -/
theorem tableReady_of_readyOnlyWhenFilled {impl : Config.TableImpl} {ticks : Nat} {ps : List PortCycle}
    (h : readyOnlyWhenFilled impl ticks ps = true) {j : Nat} {p : PortCycle} (hj : ps[j]? = some p)
    (hp : p.ready = true) : tableReady impl (ticks + j) = true := by
  induction ps generalizing ticks j with
  | nil => simp at hj
  | cons q ps ih =>
    obtain ⟨hq, hps⟩ : (q.ready = false ∨ tableReady impl ticks = true) ∧
        readyOnlyWhenFilled impl (ticks + 1) ps = true := by
      simpa [readyOnlyWhenFilled] using h
    cases j with
    | zero =>
      obtain rfl : q = p := by simpa using hj
      simpa [hp] using hq
    | succ j =>
      rw [Nat.add_comm j 1, ← Nat.add_assoc]
      exact ih hps (by simpa using hj)

end Sys2Proof.Machine
end

section
/-! The statements of 70_reset_and_hazards.md: the table's fill, the reset signal, reset and INIT, and the launch state. -/

namespace Sys2Proof.Machine

/-- Settles O7: a cycle with `cmd_ready = 1` has a complete table, of which every realisation answers the entry. -/
theorem acceptedCyclesReadFilledEntries : Obligations.AcceptedCyclesReadFilledEntries := by
  intro impl ticks ps h j p hj hp i
  obtain ⟨-, hlookup⟩ := tableRealisationsAgree
  exact hlookup impl (ticks + j) i (tableReady_of_readyOnlyWhenFilled h hj hp)

/-- Settles O35: a reset reads nothing, so a second one finds nothing to change, and it leaves an instance that takes
commands. -/
theorem resetSignalClears : Obligations.ResetSignalClears := by
  refine ⟨fun s p rest hin hr => step_of_rst hin hr, fun s t p q rest hin hp hq h => ?_, fun s t p w rest hin hr h => ?_⟩
  · obtain rfl := eq_applyReset_of_step hin hp h
    rw [step_of_rst (applyReset_inputs _) hq, applyReset_setInputs_applyReset]
    rfl
  · obtain rfl := eq_applyReset_of_step hin hr h
    exact step_commandCycle (applyReset_condition _) (applyReset_inputs _)

/-- Settles O41: only a reset changes the condition to operational, INIT before one is a refused cycle, and what is
presented with a reset is not looked at. -/
theorem onlyResetLeavesPreReset : Obligations.OnlyResetLeavesPreReset := by
  refine ⟨fun s t => exists_rst_of_leaves_preReset, fun s t u p rest hin hr ht hu => ?_, fun s rest hc hin t ht => ?_,
    fun s ready ws rest hin => ?_⟩
  · obtain rfl := eq_applyReset_of_step hin hr ht
    rw [exec_init] at hu
    cases hu
    rfl
  · obtain ⟨r, hrefused⟩ := step_refused_iff.mpr ⟨_, rest, hin, hc ▸ refusedCycle_commandCycle _⟩
    simp [ht] at hrefused
  · exact (step_of_rst hin rfl).trans
      (step_of_rst (s := setInputs (.cycle ⟨true, ready, []⟩ :: rest) s) (setInputs_inputs _ s) rfl).symm

/-- Settles O34: the launch state has the register 0, whose upper half is zero, and no response. -/
theorem resetMeetsInvariant : Obligations.ResetMeetsInvariant :=
  ⟨reset_stateInv, ⟨reset_condition, highHalf_initValue⟩, reset_rsp, reset_inputs⟩

end Sys2Proof.Machine
end
